-- ==== Sys2Proof/Word.lean ====
section
/-! DEFINITION. The words the block moves (spec/00_scope.md R3, R5): 16-bit words, 8-bit bytes, 3-bit register
selectors. Everything else about them (field extraction, extension, arithmetic) stands in the files that use it. -/

namespace Sys2Proof

/-- A word: 16 bits, bit 15 the most significant (R5). Also a word address (R13, R30). -/
abbrev Word := BitVec 16

/-- A byte of a host stream: 8 bits (R5). -/
abbrev Byte := BitVec 8

/-- A register selector: 3 bits, each of the 8 values names a register (R10, R57). -/
abbrev RegSel := BitVec 3

end Sys2Proof
end

