-- ==== Sys2Proof/Syntax.lean ====
section
/-! DEFINITION. The instructions, one constructor per row of spec/opcode_table.json: the 19 core rows of
spec/30_encoding.md R63 and the eight alias rows (the six services, RET, NOP). Pad bits are arguments, so that no bit of
an instruction word is lost (R59); no meaning reads them (R60), but for the two stopping opcodes, which report the
instruction word (R140). -/

namespace Sys2Proof

/-- An instruction. Field names are those of R54; `pad`, `padHi` and `padLo` are the pad ranges of the format. -/
inductive Instr where
  /-- ADD, register form (R81), format OPR. -/
  | addReg (dr sr1 : RegSel) (pad : BitVec 2) (sr2 : RegSel)
  /-- ADD, immediate form (R82), format OPI. -/
  | addImm (dr sr1 : RegSel) (imm5 : BitVec 5)
  /-- AND, register form (R83), format OPR. -/
  | andReg (dr sr1 : RegSel) (pad : BitVec 2) (sr2 : RegSel)
  /-- AND, immediate form (R84), format OPI. -/
  | andImm (dr sr1 : RegSel) (imm5 : BitVec 5)
  /-- NOT (R85), format NOTF. -/
  | not (dr sr : RegSel) (pad : BitVec 6)
  /-- BR (R91), format BRF. With n = z = p = 0 the word is the row NOP. -/
  | br (n z p : Bool) (pcOffset9 : BitVec 9)
  /-- JMP (R92), format JMPF. With base register 7 the word is the row RET. -/
  | jmp (padHi : BitVec 3) (baseR : RegSel) (padLo : BitVec 6)
  /-- JSR (R94), format JSRF. -/
  | jsr (pcOffset11 : BitVec 11)
  /-- JSRR (R95), format JSRRF. -/
  | jsrr (padHi : BitVec 2) (baseR : RegSel) (padLo : BitVec 6)
  /-- LD (R100), format PCR. -/
  | ld (dr : RegSel) (pcOffset9 : BitVec 9)
  /-- LDI (R101), format PCR. -/
  | ldi (dr : RegSel) (pcOffset9 : BitVec 9)
  /-- LEA (R103), format PCR. -/
  | lea (dr : RegSel) (pcOffset9 : BitVec 9)
  /-- ST (R104), format PCR. -/
  | st (sr : RegSel) (pcOffset9 : BitVec 9)
  /-- STI (R105), format PCR. -/
  | sti (sr : RegSel) (pcOffset9 : BitVec 9)
  /-- LDR (R102), format BOF. -/
  | ldr (dr baseR : RegSel) (offset6 : BitVec 6)
  /-- STR (R106), format BOF. -/
  | str (sr baseR : RegSel) (offset6 : BitVec 6)
  /-- TRAP (R120), format TRAPF. With a vector in 0x20 .. 0x25 the word is one of the six service rows. -/
  | trap (pad : BitVec 4) (trapvect8 : BitVec 8)
  /-- RTI, opcode 8 (R131), format NOF. -/
  | rti (pad : BitVec 12)
  /-- RES, the reserved opcode 13 (R132), format NOF. -/
  | res (pad : BitVec 12)
  /-- GETC: TRAP with vector 0x20 (R124). -/
  | getc (pad : BitVec 4)
  /-- OUT: TRAP with vector 0x21 (R125). -/
  | out (pad : BitVec 4)
  /-- PUTS: TRAP with vector 0x22 (R126). -/
  | puts (pad : BitVec 4)
  /-- IN: TRAP with vector 0x23 (R127). -/
  | inp (pad : BitVec 4)
  /-- PUTSP: TRAP with vector 0x24 (R128). -/
  | putsp (pad : BitVec 4)
  /-- HALT: TRAP with vector 0x25 (R129). -/
  | halt (pad : BitVec 4)
  /-- RET: JMP with base register 7 (R65, R92). -/
  | ret (padHi : BitVec 3) (padLo : BitVec 6)
  /-- NOP: BR with n = z = p = 0, any offset (R65, R91; the table's mask 0xFE00). -/
  | nop (pcOffset9 : BitVec 9)
deriving DecidableEq, Repr

end Sys2Proof
end

