-- ==== Sys2Proof/WellFormed.lean ====
section
/-! DEFINITION. Which terms of `Instr` are an instruction word's own constructor. Every field value is legal
(spec/30_encoding.md R62), so nothing is refused for a field; what is refused is a core row's term whose word is an
alias row's word (R65): that word has the alias's constructor (log 19). -/

namespace Sys2Proof

/-- The six vectors of the closed trap table (spec/43_trap_system.md R121): 0x20 .. 0x25. -/
def isServiceVector (v : BitVec 8) : Bool := decide (0x20 ≤ v.toNat ∧ v.toNat ≤ 0x25)

/-- The term is the one the decoder gives for its word: BR not NOP, JMP not RET, TRAP not one of the six services. -/
def Instr.WellFormed : Instr → Bool
  | .br n z p _ => n || z || p
  | .jmp _ baseR _ => baseR != 7#3
  | .trap _ v => !isServiceVector v
  | .addReg .. | .addImm .. | .andReg .. | .andImm .. | .not .. | .jsr .. | .jsrr .. => true
  | .ld .. | .ldi .. | .lea .. | .st .. | .sti .. | .ldr .. | .str .. => true
  | .rti .. | .res .. | .getc .. | .out .. | .puts .. | .inp .. | .putsp .. | .halt .. | .ret .. | .nop .. => true

end Sys2Proof
end

