-- ==== Sys2Proof/Decode.lean ====
section
/-! DEFINITION. The bit-field codec, the formats, the opcode table, the decoder and the encoder
(spec/30_encoding.md). Opcode numbers, field positions, mode bits and canonical pads are the spec's decisions D1 to D4
(log 8). -/

namespace Sys2Proof

/-! ### The codec (R58) -/

/-- `field(word)`: the `n` bits of `w` from bit `lo` up (R58). -/
def field (lo n : Nat) (w : Word) : BitVec n := w.extractLsb' lo n

/-- Ones in the `n` bits from bit `lo` up. -/
def fieldMask (lo n : Nat) : Word := (BitVec.allOnes n).setWidth 16 <<< lo

/-- `with_field(word, value)`: `w` with the `n` bits from `lo` up replaced by the low `n` bits of `value`, every other
bit kept (R58, D4(d): a wider value is truncated). -/
def withField (lo n : Nat) (w value : Word) : Word :=
  (w &&& ~~~ fieldMask lo n) ||| ((value <<< lo) &&& fieldMask lo n)

/-! ### The eleven formats (R54) -/

/-- The formats of R54. -/
inductive Format where
  | opr | opi | notf | brf | jmpf | jsrf | jsrrf | pcr | bof | trapf | nof
deriving DecidableEq, Repr

/-- A named bit range `hi:lo` of a format. -/
structure FieldSpec where
  name : String
  hi : Nat
  lo : Nat
deriving DecidableEq, Repr

/-- The width of the range. -/
def FieldSpec.width (f : FieldSpec) : Nat := f.hi - f.lo + 1

/-- The fields of a format, most significant first, pad ranges among them (R54, R59). -/
def Format.layout : Format → List FieldSpec
  | .opr => [⟨"opcode", 15, 12⟩, ⟨"DR", 11, 9⟩, ⟨"SR1", 8, 6⟩, ⟨"mode", 5, 5⟩, ⟨"pad", 4, 3⟩, ⟨"SR2", 2, 0⟩]
  | .opi => [⟨"opcode", 15, 12⟩, ⟨"DR", 11, 9⟩, ⟨"SR1", 8, 6⟩, ⟨"mode", 5, 5⟩, ⟨"imm5", 4, 0⟩]
  | .notf => [⟨"opcode", 15, 12⟩, ⟨"DR", 11, 9⟩, ⟨"SR", 8, 6⟩, ⟨"pad", 5, 0⟩]
  | .brf => [⟨"opcode", 15, 12⟩, ⟨"n", 11, 11⟩, ⟨"z", 10, 10⟩, ⟨"p", 9, 9⟩, ⟨"PCoffset9", 8, 0⟩]
  | .jmpf => [⟨"opcode", 15, 12⟩, ⟨"pad_hi", 11, 9⟩, ⟨"BaseR", 8, 6⟩, ⟨"pad_lo", 5, 0⟩]
  | .jsrf => [⟨"opcode", 15, 12⟩, ⟨"mode", 11, 11⟩, ⟨"PCoffset11", 10, 0⟩]
  | .jsrrf => [⟨"opcode", 15, 12⟩, ⟨"mode", 11, 11⟩, ⟨"pad_hi", 10, 9⟩, ⟨"BaseR", 8, 6⟩, ⟨"pad_lo", 5, 0⟩]
  | .pcr => [⟨"opcode", 15, 12⟩, ⟨"DR or SR", 11, 9⟩, ⟨"PCoffset9", 8, 0⟩]
  | .bof => [⟨"opcode", 15, 12⟩, ⟨"DR or SR", 11, 9⟩, ⟨"BaseR", 8, 6⟩, ⟨"offset6", 5, 0⟩]
  | .trapf => [⟨"opcode", 15, 12⟩, ⟨"pad", 11, 8⟩, ⟨"trapvect8", 7, 0⟩]
  | .nof => [⟨"opcode", 15, 12⟩, ⟨"pad", 11, 0⟩]

/-- The fields of a word under a format, each as a number in a word (R58). -/
def Format.extract (f : Format) (w : Word) : List Word :=
  f.layout.map fun s => (field s.lo s.width w).setWidth 16

/-- The word whose fields under a list of ranges are the given values, starting from `acc`. -/
def insertFields : List FieldSpec → List Word → Word → Word
  | s :: ss, v :: vs, acc => insertFields ss vs (withField s.lo s.width acc v)
  | _, _, acc => acc

/-- Re-encoding with the codec from extracted fields (R59). -/
def Format.assemble (f : Format) (values : List Word) : Word := insertFields f.layout values 0

/-! ### The opcode table (R63, spec/opcode_table.json) -/

/-- A row of the opcode table: the words `w` with `w & mask = pattern`. -/
structure Row where
  mnemonic : String
  format : Format
  pattern : Word
  mask : Word
deriving DecidableEq, Repr

/-- R63: a word is the row's instruction when `w & mask == match`. -/
def Row.selects (r : Row) (w : Word) : Bool := w &&& r.mask == r.pattern

/-- The row of spec/opcode_table.json an instruction is. -/
def Instr.row : Instr → Row
  | .addReg .. => ⟨"ADD", .opr, 0x1000, 0xF020⟩
  | .addImm .. => ⟨"ADD", .opi, 0x1020, 0xF020⟩
  | .andReg .. => ⟨"AND", .opr, 0x5000, 0xF020⟩
  | .andImm .. => ⟨"AND", .opi, 0x5020, 0xF020⟩
  | .not .. => ⟨"NOT", .notf, 0x9000, 0xF000⟩
  | .br .. => ⟨"BR", .brf, 0x0000, 0xF000⟩
  | .jmp .. => ⟨"JMP", .jmpf, 0xC000, 0xF000⟩
  | .jsr .. => ⟨"JSR", .jsrf, 0x4800, 0xF800⟩
  | .jsrr .. => ⟨"JSRR", .jsrrf, 0x4000, 0xF800⟩
  | .ld .. => ⟨"LD", .pcr, 0x2000, 0xF000⟩
  | .ldi .. => ⟨"LDI", .pcr, 0xA000, 0xF000⟩
  | .lea .. => ⟨"LEA", .pcr, 0xE000, 0xF000⟩
  | .st .. => ⟨"ST", .pcr, 0x3000, 0xF000⟩
  | .sti .. => ⟨"STI", .pcr, 0xB000, 0xF000⟩
  | .ldr .. => ⟨"LDR", .bof, 0x6000, 0xF000⟩
  | .str .. => ⟨"STR", .bof, 0x7000, 0xF000⟩
  | .trap .. => ⟨"TRAP", .trapf, 0xF000, 0xF000⟩
  | .rti .. => ⟨"RTI", .nof, 0x8000, 0xF000⟩
  | .res .. => ⟨"RES", .nof, 0xD000, 0xF000⟩
  | .getc .. => ⟨"GETC", .trapf, 0xF020, 0xF0FF⟩
  | .out .. => ⟨"OUT", .trapf, 0xF021, 0xF0FF⟩
  | .puts .. => ⟨"PUTS", .trapf, 0xF022, 0xF0FF⟩
  | .inp .. => ⟨"IN", .trapf, 0xF023, 0xF0FF⟩
  | .putsp .. => ⟨"PUTSP", .trapf, 0xF024, 0xF0FF⟩
  | .halt .. => ⟨"HALT", .trapf, 0xF025, 0xF0FF⟩
  | .ret .. => ⟨"RET", .jmpf, 0xC1C0, 0xF1C0⟩
  | .nop .. => ⟨"NOP", .brf, 0x0000, 0xFE00⟩

/-- The 19 core rows, which partition the words (R63). -/
def coreRows : List Row :=
  [(Instr.addReg 0 0 0 0).row, (Instr.addImm 0 0 0).row, (Instr.andReg 0 0 0 0).row, (Instr.andImm 0 0 0).row,
   (Instr.not 0 0 0).row, (Instr.br true true true 0).row, (Instr.jmp 0 0 0).row, (Instr.jsr 0).row,
   (Instr.jsrr 0 0 0).row, (Instr.ld 0 0).row, (Instr.ldi 0 0).row, (Instr.lea 0 0).row, (Instr.st 0 0).row,
   (Instr.sti 0 0).row, (Instr.ldr 0 0 0).row, (Instr.str 0 0 0).row, (Instr.trap 0 0).row, (Instr.rti 0).row,
   (Instr.res 0).row]

/-- The eight alias rows: more specific names of words of a core row (R63, R65). -/
def aliasRows : List Row :=
  [(Instr.getc 0).row, (Instr.out 0).row, (Instr.puts 0).row, (Instr.inp 0).row, (Instr.putsp 0).row,
   (Instr.halt 0).row, (Instr.ret 0 0).row, (Instr.nop 0).row]

/-! ### The decoder (R62) -/

/-- Opcode 0 (R91): BR, or NOP where no flag bit is set. -/
def decodeBr (w : Word) : Instr :=
  if field 9 3 w = 0#3 then .nop (field 0 9 w)
  else .br (w.getLsbD 11) (w.getLsbD 10) (w.getLsbD 9) (field 0 9 w)

/-- Opcode 1 (R55): `ir[5]` chooses the register or the immediate layout. -/
def decodeAdd (w : Word) : Instr :=
  if w.getLsbD 5 then .addImm (field 9 3 w) (field 6 3 w) (field 0 5 w)
  else .addReg (field 9 3 w) (field 6 3 w) (field 3 2 w) (field 0 3 w)

/-- Opcode 5 (R55), likewise. -/
def decodeAnd (w : Word) : Instr :=
  if w.getLsbD 5 then .andImm (field 9 3 w) (field 6 3 w) (field 0 5 w)
  else .andReg (field 9 3 w) (field 6 3 w) (field 3 2 w) (field 0 3 w)

/-- Opcode 4 (R55): `ir[11]` chooses JSR or JSRR. -/
def decodeJsr (w : Word) : Instr :=
  if w.getLsbD 11 then .jsr (field 0 11 w) else .jsrr (field 9 2 w) (field 6 3 w) (field 0 6 w)

/-- Opcode 12 (R92): JMP, or RET where the base register is 7. -/
def decodeJmp (w : Word) : Instr :=
  if field 6 3 w = 7#3 then .ret (field 9 3 w) (field 0 6 w)
  else .jmp (field 9 3 w) (field 6 3 w) (field 0 6 w)

/-- Opcode 15 (R120, R121): the vector chooses the service row; any other vector is the row TRAP. -/
def decodeTrap (w : Word) : Instr :=
  let pad := field 8 4 w
  let vect := field 0 8 w
  if vect = 0x20#8 then .getc pad
  else if vect = 0x21#8 then .out pad
  else if vect = 0x22#8 then .puts pad
  else if vect = 0x23#8 then .inp pad
  else if vect = 0x24#8 then .putsp pad
  else if vect = 0x25#8 then .halt pad
  else .trap pad vect

/-- R52: the opcode selects the layout. -/
def decodeOpcode (opcode : BitVec 4) (w : Word) : Instr :=
  if opcode = 0#4 then decodeBr w
  else if opcode = 1#4 then decodeAdd w
  else if opcode = 2#4 then .ld (field 9 3 w) (field 0 9 w)
  else if opcode = 3#4 then .st (field 9 3 w) (field 0 9 w)
  else if opcode = 4#4 then decodeJsr w
  else if opcode = 5#4 then decodeAnd w
  else if opcode = 6#4 then .ldr (field 9 3 w) (field 6 3 w) (field 0 6 w)
  else if opcode = 7#4 then .str (field 9 3 w) (field 6 3 w) (field 0 6 w)
  else if opcode = 8#4 then .rti (field 0 12 w)
  else if opcode = 9#4 then .not (field 9 3 w) (field 6 3 w) (field 0 6 w)
  else if opcode = 10#4 then .ldi (field 9 3 w) (field 0 9 w)
  else if opcode = 11#4 then .sti (field 9 3 w) (field 0 9 w)
  else if opcode = 12#4 then decodeJmp w
  else if opcode = 13#4 then .res (field 0 12 w)
  else if opcode = 14#4 then .lea (field 9 3 w) (field 0 9 w)
  else decodeTrap w

/-- R62: decode is total on 16-bit words. The words that stop the machine are instructions too (`rti`, `res`, `trap`
with a vector outside the table): their meaning raises. -/
def decode (w : Word) : Instr := decodeOpcode (field 12 4 w) w

/-- Why a row of bits is no instruction: an instruction is exactly one 16-bit word (R50). -/
inductive DecodeError where
  /-- More bits than one word: no such instruction (R50). Raised by `decodeBits`. Safe. -/
  | notOneWord
deriving DecidableEq, Repr

/-- Decoding from `nbits` bits numbered as in the opcode table: a shorter row's missing bits are 0 (log 26). -/
def decodeBits (nbits w : Nat) : Except DecodeError Instr :=
  if nbits ≤ 16 ∧ w < 65536 then .ok (decode (BitVec.ofNat 16 w)) else .error .notOneWord

/-- The instruction the decoder reads from a row's bits; none where it refuses. -/
def decodeTableWord (nbits w : Nat) : Option Instr :=
  match decodeBits nbits w with
  | .ok i => some i
  | .error _ => none

/-! ### The encoder (R63) -/

/-- A field value standing in a word with its lowest bit at `lo`. -/
def place {n : Nat} (lo : Nat) (v : BitVec n) : Word := v.setWidth 16 <<< lo

/-- The bits of an instruction word that its row leaves free, each field in its place (R54). -/
def Instr.operandBits : Instr → Word
  | .addReg dr sr1 pad sr2 => place 9 dr ||| place 6 sr1 ||| place 3 pad ||| place 0 sr2
  | .addImm dr sr1 imm5 => place 9 dr ||| place 6 sr1 ||| place 0 imm5
  | .andReg dr sr1 pad sr2 => place 9 dr ||| place 6 sr1 ||| place 3 pad ||| place 0 sr2
  | .andImm dr sr1 imm5 => place 9 dr ||| place 6 sr1 ||| place 0 imm5
  | .not dr sr pad => place 9 dr ||| place 6 sr ||| place 0 pad
  | .br n z p off =>
    place 11 (BitVec.ofBool n) ||| place 10 (BitVec.ofBool z) ||| place 9 (BitVec.ofBool p) ||| place 0 off
  | .jmp padHi baseR padLo => place 9 padHi ||| place 6 baseR ||| place 0 padLo
  | .jsr off => place 0 off
  | .jsrr padHi baseR padLo => place 9 padHi ||| place 6 baseR ||| place 0 padLo
  | .ld dr off => place 9 dr ||| place 0 off
  | .ldi dr off => place 9 dr ||| place 0 off
  | .lea dr off => place 9 dr ||| place 0 off
  | .st sr off => place 9 sr ||| place 0 off
  | .sti sr off => place 9 sr ||| place 0 off
  | .ldr dr baseR off => place 9 dr ||| place 6 baseR ||| place 0 off
  | .str sr baseR off => place 9 sr ||| place 6 baseR ||| place 0 off
  | .trap pad vect => place 8 pad ||| place 0 vect
  | .rti pad => place 0 pad
  | .res pad => place 0 pad
  | .getc pad => place 8 pad
  | .out pad => place 8 pad
  | .puts pad => place 8 pad
  | .inp pad => place 8 pad
  | .putsp pad => place 8 pad
  | .halt pad => place 8 pad
  | .ret padHi padLo => place 9 padHi ||| place 0 padLo
  | .nop off => place 0 off

/-- The word of an instruction: its row's fixed bits and its fields (R54, R63). -/
def encode (i : Instr) : Word := i.row.pattern ||| i.operandBits

/-- The instruction with the canonical pad bits, those an assembler emits (R60). -/
def Instr.canonical : Instr → Instr
  | .addReg dr sr1 _ sr2 => .addReg dr sr1 0 sr2
  | .addImm dr sr1 imm5 => .addImm dr sr1 imm5
  | .andReg dr sr1 _ sr2 => .andReg dr sr1 0 sr2
  | .andImm dr sr1 imm5 => .andImm dr sr1 imm5
  | .not dr sr _ => .not dr sr 0x3F
  | .br n z p off => .br n z p off
  | .jmp _ baseR _ => .jmp 0 baseR 0
  | .jsr off => .jsr off
  | .jsrr _ baseR _ => .jsrr 0 baseR 0
  | .ld dr off => .ld dr off
  | .ldi dr off => .ldi dr off
  | .lea dr off => .lea dr off
  | .st sr off => .st sr off
  | .sti sr off => .sti sr off
  | .ldr dr baseR off => .ldr dr baseR off
  | .str sr baseR off => .str sr baseR off
  | .trap _ vect => .trap 0 vect
  | .rti _ => .rti 0
  | .res _ => .res 0
  | .getc _ => .getc 0
  | .out _ => .out 0
  | .puts _ => .puts 0
  | .inp _ => .inp 0
  | .putsp _ => .putsp 0
  | .halt _ => .halt 0
  | .ret _ _ => .ret 0 0
  | .nop off => .nop off

/-- The pseudo-instructions' words (R65): RET, GETC, OUT, PUTS, IN, PUTSP, HALT, NOP. -/
def pseudoInstructions : List (String × Instr) :=
  [("RET", .ret 0 0), ("GETC", .getc 0), ("OUT", .out 0), ("PUTS", .puts 0), ("IN", .inp 0), ("PUTSP", .putsp 0),
   ("HALT", .halt 0), ("NOP", .nop 0)]

end Sys2Proof
end

