-- ==== Sys2Proof/Config.lean ====
section
/-! DEFINITION. The parameters of spec/00_scope.md R4: the values the source leaves open. Those with a default are
fields of `Config`, which State holds read-only so that a claim quantifies over them; PUTS_WIDE, which has no default,
is a free value. MEM_INIT and ENTRY_PC are arguments of reset and of the loader (Machine/Environment.lean). -/

namespace Sys2Proof

/-- The defaulted parameters of R4. The defaults stand in Machine/Defaults.lean. -/
structure Config where
  /-- RESET_PC: the program counter after reset (R27, D5). -/
  resetPc : Word
  /-- FL_POS: the flags register's pattern for P (R15, D6). -/
  flPos : Word
  /-- FL_ZRO: the flags register's pattern for Z (R15, D6). -/
  flZro : Word
  /-- FL_NEG: the flags register's pattern for N (R15, D6). -/
  flNeg : Word
  /-- IN_PROMPT: the bytes the IN service sends before it reads (R127, D11). -/
  inPrompt : List Byte
  /-- HALT_NOTICE: the bytes the HALT service sends (R129, D12). -/
  haltNotice : List Byte
deriving DecidableEq, Repr

/-- R4: FL_POS, FL_ZRO and FL_NEG are three distinct patterns. -/
def Config.flagsDistinct (c : Config) : Bool :=
  c.flPos != c.flZro && c.flPos != c.flNeg && c.flZro != c.flNeg

/-- PUTS_WIDE (R4, R126, D10, I1): the bytes PUTS sends for a memory word in 0x0100 .. 0xFFFF. The spec leaves it OPEN,
so it is a free value: a constant with no body, applied to the word. See log 6. -/
opaque Config.putsWide : Word → List Byte

end Sys2Proof
end

