-- ==== Sys2Proof/Machine/Defaults.lean ====
section
/-! DEFINITION. The defaults of the parameters of spec/00_scope.md R4 (D5, D6, D11, D12). All are marked in the spec as
general knowledge: PRESUMED, log 2 to 5. -/

namespace Sys2Proof.Machine

/-- The 19 bytes of "Enter a character: " (R4, D11; log 4). -/
def defaultInPrompt : List Byte :=
  [0x45, 0x6E, 0x74, 0x65, 0x72, 0x20, 0x61, 0x20, 0x63, 0x68, 0x61, 0x72, 0x61, 0x63, 0x74, 0x65, 0x72, 0x3A, 0x20]

/-- The 4 letters of "HALT" and 0x0A (R4, D12; log 5). -/
def defaultHaltNotice : List Byte := [0x48, 0x41, 0x4C, 0x54, 0x0A]

/-- The defaults of R4: RESET_PC 0x3000 (D5; log 2), FL_POS 1, FL_ZRO 2, FL_NEG 4 (D6; log 3), and the two texts. -/
def defaultConfig : Config where
  resetPc := 0x3000
  flPos := 0x0001
  flZro := 0x0002
  flNeg := 0x0004
  inPrompt := defaultInPrompt
  haltNotice := defaultHaltNotice

end Sys2Proof.Machine
end

