-- ==== Sys2Proof/Machine/State.lean ====
section
/-! DEFINITION. The state of the block (spec/10_state.md section 1, INVENTORY.md), as plain data, and the state after
reset. -/

namespace Sys2Proof.Machine

/-- The condition flags: exactly one of N, Z, P at any time (R15). -/
inductive Cond where
  | N | Z | P
deriving DecidableEq, Repr

/-- The four fatal causes, each with the information R140 says it carries. -/
inductive FatalCause where
  /-- The reserved opcode 13, with the instruction word (R132). -/
  | invalidOpcode (ir : Word)
  /-- RTI, with the instruction word (R131). -/
  | unsupportedInstruction (ir : Word)
  /-- TRAP with a vector outside 0x20 .. 0x25, with the vector (R130). -/
  | invalidTrapVector (trapvect8 : BitVec 8)
  /-- A host stream that is closed or fails (R25, R26). -/
  | hostIOFailure
deriving DecidableEq, Repr

/-- The run state (R19). HALTED and FAULTED are absorbing. -/
inductive RunState where
  | running
  | halted
  | faulted (cause : FatalCause)
deriving DecidableEq, Repr

/-- One outcome of HostIn() (R25): a byte, no byte yet, or a closed or failing stream. -/
inductive HostInput where
  | byte (b : Byte)
  | notYet
  | failure
deriving DecidableEq, Repr

/-- One item of the output stream (R24, R26). -/
inductive HostOutput where
  | byte (b : Byte)
  | flush
deriving DecidableEq, Repr

/-- The place inside a step where HostIn() waits: the service that asked (R25(b), I6). -/
inductive WaitPoint where
  | getc
  | inp
deriving DecidableEq, Repr

/-- Memory: (word address, word) pairs, addresses strictly rising, no word equal to what an unlisted address reads as
(`Memory.wf`). The addressable unit is the word (R30), so a cell holds one (log 18). -/
abbrev Memory := List (Nat × Word)

/-- The state of the block. Every field but `cfg` is the spec's state (INVENTORY.md, State). -/
structure State where
  /-- `x[0]` .. `x[7]` (R10). -/
  regs : Vector Word 8
  /-- `pc` (R13): the next instruction's address between steps, `pc_inc` during execute. -/
  pc : Word
  /-- `cond` (R15). -/
  cond : Cond
  /-- `run` (R19). -/
  run : RunState
  /-- `mem` (R23). -/
  mem : Memory
  /-- `in` (R24): the outcomes HostIn() will have, in order; when empty, the stream is open and silent (log 13). -/
  input : List HostInput
  /-- `out` (R24): what the block has emitted, oldest first. -/
  output : List HostOutput
  /-- How many more bytes the output sink takes before it fails; none: it never fails (R26, I7; log 15). -/
  sinkRoom : Option Nat
  /-- The service waiting for input inside its step, if one is (R20, R25(b); log 14). -/
  waiting : Option WaitPoint
  /-- The parameters of R4, read-only (log 7). -/
  cfg : Config
deriving DecidableEq, Repr

/-- Why a step has no next state. The spec's own fatal causes are state (`RunState.faulted`), not this. -/
inductive Fault where
  /-- PUTS or PUTSP over a memory without a terminator: the step never completes (R122, I8, D26). Raised by
  `execPuts`, `execPutsp` and `execTrap` with their vectors. Safe: the hardware has no next state either (log 17). -/
  | serviceNeverEnds
deriving DecidableEq, Repr

/-- Why the model gives a step no meaning. -/
inductive Refusal where
  /-- An instruction without a meaning yet, by its mnemonic. No arm of `exec` raises it. Safe. -/
  | notModelled (mnemonic : String)
deriving DecidableEq, Repr

/-- The reset state over a configuration, the memory's launch content MEM_INIT (R27, D17), and the host's side of the
two streams (R171). -/
def State.resetWith (cfg : Config) (memInit : Memory) (input : List HostInput) (sinkRoom : Option Nat) : State where
  regs := Vector.replicate 8 0x0000
  pc := cfg.resetPc
  cond := .Z
  run := .running
  mem := memInit
  input := input
  output := []
  sinkRoom := sinkRoom
  waiting := none
  cfg := cfg

/-- The machine right after reset (R27, R171): default parameters, no memory listed (log 1), a host that has supplied
no input (log 13) and whose sink never fails (log 15). -/
def State.reset : State := State.resetWith defaultConfig [] [] none

end Sys2Proof.Machine
end

