-- ==== Sys2Proof/Machine/Ops.lean ====
section
/-! DEFINITION. The named operations over memory, registers, the run state and the host streams: spec/00_scope.md R6,
spec/20_memory.md R32, R33, spec/10_state.md R20 to R26, spec/60_exceptions.md R141, R150. -/

namespace Sys2Proof.Machine

/-! ### Memory (R30 to R33) -/

/-- What a word address that is not listed reads as. The spec leaves the launch content of memory open (MEM_INIT, D17);
`State.reset` lists nothing, so this is the model's choice of its content. DESIGN CHOICE, log 1. -/
def Memory.unlisted : Word := 0x0000#16

/-- The word at a numeric address. -/
def Memory.lookup (k : Nat) : Memory → Word
  | [] => Memory.unlisted
  | (j, v) :: rest => if j = k then v else Memory.lookup k rest

/-- The memory with `v` at a numeric address, in canonical form: what reads as unlisted is not listed. -/
def Memory.insert (k : Nat) (v : Word) : Memory → Memory
  | [] => if v = Memory.unlisted then [] else [(k, v)]
  | (j, u) :: rest =>
    if k < j then (if v = Memory.unlisted then (j, u) :: rest else (k, v) :: (j, u) :: rest)
    else if k = j then (if v = Memory.unlisted then rest else (k, v) :: rest)
    else (j, u) :: Memory.insert k v rest

/-- `MemRead(addr, 1)` (R32). -/
def Memory.read (m : Memory) (addr : Word) : Word := Memory.lookup addr.toNat m

/-- `MemWrite(addr, 1, v)` (R33). -/
def Memory.write (m : Memory) (addr v : Word) : Memory := Memory.insert addr.toNat v m

/-- The canonical form from address `lo` up: strictly rising 16-bit addresses, no word that reads as unlisted. -/
def Memory.wfFrom : Nat → Memory → Bool
  | _, [] => true
  | lo, (k, v) :: rest => decide (lo ≤ k) && decide (k < 65536) && decide (v ≠ Memory.unlisted) && Memory.wfFrom (k + 1) rest

/-- The canonical form of a memory. -/
def Memory.wf (m : Memory) : Bool := Memory.wfFrom 0 m

/-! ### Registers (R6, R10) -/

/-- `x[i]` (R6). -/
def State.x (s : State) (i : RegSel) : Word := s.regs[i.toNat]'(i.isLt)

/-- `x[i] <- v` (R6): no register is hard-wired (R10). -/
def State.writeReg (i : RegSel) (v : Word) (s : State) : State := { s with regs := s.regs.set i.toNat v i.isLt }

/-- `pc <- target` (R6, R90). -/
def State.setPc (target : Word) (s : State) : State := { s with pc := target }

/-- `cond <- f` (R6). -/
def State.setCond (f : Cond) (s : State) : State := { s with cond := f }

/-- `run <- r` (R6, R19). -/
def State.setRun (r : RunState) (s : State) : State := { s with run := r }

/-- Memory replaced. -/
def State.setMem (m : Memory) (s : State) : State := { s with mem := m }

/-- The remaining host input replaced. -/
def State.setInput (i : List HostInput) (s : State) : State := { s with input := i }

/-- The wait point replaced. -/
def State.setWaiting (w : Option WaitPoint) (s : State) : State := { s with waiting := w }

/-- The sink's room replaced. -/
def State.setSinkRoom (r : Option Nat) (s : State) : State := { s with sinkRoom := r }

/-- An item appended to the output stream (R26). -/
def State.emit (o : HostOutput) (s : State) : State := { s with output := s.output ++ [o] }

/-- `MemRead(addr, 1)` of the block's memory. -/
def State.memRead (s : State) (addr : Word) : Word := s.mem.read addr

/-- `MemWrite(addr, 1, v)` to the block's memory. -/
def State.memWrite (addr v : Word) (s : State) : State := s.setMem (s.mem.write addr v)

/-! ### The step's parts (R20) -/

/-- The fetch: the word at `pc` (R20). -/
def State.fetch (s : State) : Word := s.memRead s.pc

/-- The advance: `pc <- pc + 1`, modulo 65536 (R14, R20). -/
def State.advance (s : State) : State := s.setPc (s.pc + 1)

/-! ### Stopping, and the entry to a TRAP (R141, R150)

The block has no exception entry that saves a program counter or a status and no handler (R150), and no return (R151).
What it has is `raise`, and the link write of TRAP, JSR and JSRR. -/

/-- `raise c`: the run state becomes FAULTED(c); what was written stays written (R141). -/
def raise (c : FatalCause) (s : State) : State := s.setRun (.faulted c)

/-- The link write: `x[7] <- pc`, which is `pc_inc` (R93, R120, R150). -/
def link (s : State) : State := s.writeReg 7#3 s.pc

/-! ### How a part of an instruction ends -/

/-- How a part of an instruction leaves the block: it goes on, it has raised a cause (the rest is abandoned, R141), it
waits inside HostIn() (R25(b)), or it never ends (R122). -/
inductive Flow where
  | done (s : State)
  | raised (s : State)
  | waits (s : State)
  | endless
deriving DecidableEq, Repr

/-- Statement order (R7): the rest runs only where the part before it went on. -/
def Flow.andThen (f : Flow) (rest : State → Flow) : Flow :=
  match f with
  | .done s => rest s
  | .raised s => .raised s
  | .waits s => .waits s
  | .endless => .endless

/-- The step's outcome. A raised cause and a wait are states of the block; a service that never ends has none. -/
def Flow.outcome : Flow → Host.Outcome State Fault Refusal
  | .done s => .next s
  | .raised s => .next s
  | .waits s => .next s
  | .endless => .fault .serviceNeverEnds

/-! ### The host streams (R24 to R26) -/

/-- `HostOut(b)`: the byte is appended, or the sink fails at it and HostIOFailure is raised (R26, D15). -/
def hostOut (b : Byte) (s : State) : Flow :=
  match s.sinkRoom with
  | none => .done (s.emit (.byte b))
  | some 0 => .raised (raise .hostIOFailure s)
  | some (n + 1) => .done ((s.emit (.byte b)).setSinkRoom (some n))

/-- `for each byte b of bs: HostOut(b)`. -/
def hostOutAll : List Byte → State → Flow
  | [], s => .done s
  | b :: bs, s => (hostOut b s).andThen (hostOutAll bs)

/-- `HostFlush()`: a flush mark; it changes nothing else and never fails (R26, D22; log 16). -/
def hostFlush (s : State) : State := s.emit .flush

/-- `c <- HostIn()` and the rest of the service (R25): (a) a byte is taken from the front; (b) none yet: the step waits
at this point; (c) the stream is closed or fails: HostIOFailure. -/
def hostIn (point : WaitPoint) (rest : Byte → State → Flow) (s : State) : Flow :=
  match s.input with
  | .byte b :: more => rest b ((s.setInput more).setWaiting none)
  | .notYet :: more => .waits ((s.setInput more).setWaiting (some point))
  | .failure :: _ => .raised (raise .hostIOFailure (s.setWaiting none))
  | [] => .waits (s.setWaiting (some point))

end Sys2Proof.Machine
end

