-- ==== Sys2Proof/Machine/Operands.lean ====
section
/-! DEFINITION. Immediates and addressing modes: spec/30_encoding.md R56, R57, spec/42_load_store.md R107. During
execute `pc` holds `pc_inc` (R8). -/

namespace Sys2Proof.Machine

/-- `sext_N(v)`: sign extension to 16 bits (R56). -/
def sext {n : Nat} (v : BitVec n) : Word := v.signExtend 16

/-- `zext_N(v)`: zeros in bits 15 to N (R6). -/
def zext {n : Nat} (v : BitVec n) : Word := v.setWidth 16

/-- A PC-relative address: `pc_inc + sext_N(offset)`, modulo 65536 (R57, R90, R107). -/
def State.pcRelative {n : Nat} (s : State) (offset : BitVec n) : Word := s.pc + sext offset

/-- The indirect address: the word at the PC-relative address (R107). -/
def State.indirect {n : Nat} (s : State) (offset : BitVec n) : Word := s.memRead (s.pcRelative offset)

/-- Base plus offset: `x[BaseR] + sext_6(offset6)` (R107). -/
def State.basePlusOffset {n : Nat} (s : State) (baseR : RegSel) (offset : BitVec n) : Word := s.x baseR + sext offset

/-- The low byte `w[7:0]` (R125, R128). -/
def lowByte (w : Word) : Byte := w.extractLsb' 0 8

/-- The high byte `w[15:8]` (R128). -/
def highByte (w : Word) : Byte := w.extractLsb' 8 8

end Sys2Proof.Machine
end

