-- ==== Sys2Proof/Machine/Flags.lean ====
section
/-! DEFINITION. The condition flags: spec/10_state.md R15 to R18, spec/41_control.md R91. There is no carry, overflow or
parity flag (R16, R80). -/

namespace Sys2Proof.Machine

/-- The three cases of `setcc` (R16): zero, bit 15 set, otherwise. -/
def condOf (v : Word) : Cond := if v = 0x0000#16 then .Z else if v.msb then .N else .P

/-- `setcc(i)` (R16): the flags from the register's current value. -/
def setcc (i : RegSel) (s : State) : State := s.setCond (condOf (s.x i))

/-- `x[i] <- v; setcc(i)`: how every instruction that writes the flags ends (R17). -/
def State.writeRegSetcc (i : RegSel) (v : Word) (s : State) : State := setcc i (s.writeReg i v)

/-- BR's test (R91): a requested flag matches the current one. -/
def brTaken (n z p : Bool) (c : Cond) : Bool :=
  match c with
  | .N => n
  | .Z => z
  | .P => p

/-- The pattern the flags register holds for a condition (R15, D6). -/
def Config.pattern (cfg : Config) : Cond → Word
  | .N => cfg.flNeg
  | .Z => cfg.flZro
  | .P => cfg.flPos

/-- The condition-flags register as a word (R15): what a host that inspects it sees. -/
def State.condWord (s : State) : Word := Config.pattern s.cfg s.cond

/-- The register file of ten words (R18): x[0] .. x[7], pc at index 8, the flags register at index 9. -/
def State.registerFile (s : State) : List Word := s.regs.toList ++ [s.pc, s.condWord]

end Sys2Proof.Machine
end

