-- ==== Sys2Proof/Machine/Control.lean ====
section
/-! DEFINITION. BR, JMP, JSR, JSRR and the aliases NOP and RET: spec/41_control.md R90 to R96. -/

namespace Sys2Proof.Machine

/-- BR (R91): where a requested flag matches, `pc <- pc + sext_9(PCoffset9)`; else nothing. -/
def execBr (n z p : Bool) (pcOffset9 : BitVec 9) (s : State) : Host.Outcome State Fault Refusal :=
  .next (if brTaken n z p s.cond then s.setPc (s.pcRelative pcOffset9) else s)

/-- NOP (R91, R65): BR with n = z = p = 0, never taken. -/
def execNop (pcOffset9 : BitVec 9) (s : State) : Host.Outcome State Fault Refusal :=
  .next (if brTaken false false false s.cond then s.setPc (s.pcRelative pcOffset9) else s)

/-- JMP (R92): `pc <- x[BaseR]`. -/
def execJmp (baseR : RegSel) (s : State) : Host.Outcome State Fault Refusal :=
  .next (s.setPc (s.x baseR))

/-- RET (R92, R65): JMP with base register 7. -/
def execRet (s : State) : Host.Outcome State Fault Refusal :=
  .next (s.setPc (s.x 7#3))

/-- JSR (R94): the link first, then `pc <- pc + sext_11(PCoffset11)`. -/
def execJsr (pcOffset11 : BitVec 11) (s : State) : Host.Outcome State Fault Refusal :=
  .next ((link s).setPc ((link s).pcRelative pcOffset11))

/-- JSRR (R95): the link first, then the base register is read, so `JSRR R7` falls through (D9; log 9). -/
def execJsrr (baseR : RegSel) (s : State) : Host.Outcome State Fault Refusal :=
  .next ((link s).setPc ((link s).x baseR))

end Sys2Proof.Machine
end

