-- ==== Sys2Proof/Machine/LoadStore.lean ====
section
/-! DEFINITION. LD, LDI, LDR, LEA, ST, STI, STR: spec/42_load_store.md R100 to R108. -/

namespace Sys2Proof.Machine

/-- LD (R100). -/
def execLd (dr : RegSel) (pcOffset9 : BitVec 9) (s : State) : Host.Outcome State Fault Refusal :=
  .next (s.writeRegSetcc dr (s.memRead (s.pcRelative pcOffset9)))

/-- LDI (R101): the pointer is read first, then the word it names. -/
def execLdi (dr : RegSel) (pcOffset9 : BitVec 9) (s : State) : Host.Outcome State Fault Refusal :=
  .next (s.writeRegSetcc dr (s.memRead (s.indirect pcOffset9)))

/-- LDR (R102). -/
def execLdr (dr baseR : RegSel) (offset6 : BitVec 6) (s : State) : Host.Outcome State Fault Refusal :=
  .next (s.writeRegSetcc dr (s.memRead (s.basePlusOffset baseR offset6)))

/-- LEA (R103): the address itself; it does write the flags (R17). -/
def execLea (dr : RegSel) (pcOffset9 : BitVec 9) (s : State) : Host.Outcome State Fault Refusal :=
  .next (s.writeRegSetcc dr (s.pcRelative pcOffset9))

/-- ST (R104). -/
def execSt (sr : RegSel) (pcOffset9 : BitVec 9) (s : State) : Host.Outcome State Fault Refusal :=
  .next (s.memWrite (s.pcRelative pcOffset9) (s.x sr))

/-- STI (R105): the pointer is read, then the word is written where it points. -/
def execSti (sr : RegSel) (pcOffset9 : BitVec 9) (s : State) : Host.Outcome State Fault Refusal :=
  .next (s.memWrite (s.indirect pcOffset9) (s.x sr))

/-- STR (R106). -/
def execStr (sr baseR : RegSel) (offset6 : BitVec 6) (s : State) : Host.Outcome State Fault Refusal :=
  .next (s.memWrite (s.basePlusOffset baseR offset6) (s.x sr))

end Sys2Proof.Machine
end

