-- ==== Sys2Proof/Machine/Operate.lean ====
section
/-! DEFINITION. ADD, AND, NOT: spec/40_operate.md R80 to R86. Sources are read before the destination is written. -/

namespace Sys2Proof.Machine

/-- ADD, register form (R81): `x[DR] <- x[SR1] + x[SR2]`, modulo 65536; setcc(DR). -/
def execAddReg (dr sr1 sr2 : RegSel) (s : State) : Host.Outcome State Fault Refusal :=
  .next (s.writeRegSetcc dr (s.x sr1 + s.x sr2))

/-- ADD, immediate form (R82): `x[DR] <- x[SR1] + sext_5(imm5)`; setcc(DR). -/
def execAddImm (dr sr1 : RegSel) (imm5 : BitVec 5) (s : State) : Host.Outcome State Fault Refusal :=
  .next (s.writeRegSetcc dr (s.x sr1 + sext imm5))

/-- AND, register form (R83): `x[DR] <- x[SR1] & x[SR2]`; setcc(DR). -/
def execAndReg (dr sr1 sr2 : RegSel) (s : State) : Host.Outcome State Fault Refusal :=
  .next (s.writeRegSetcc dr (s.x sr1 &&& s.x sr2))

/-- AND, immediate form (R84): the mask is sign-extended; setcc(DR). -/
def execAndImm (dr sr1 : RegSel) (imm5 : BitVec 5) (s : State) : Host.Outcome State Fault Refusal :=
  .next (s.writeRegSetcc dr (s.x sr1 &&& sext imm5))

/-- NOT (R85): `x[DR] <- ~x[SR]`; setcc(DR). -/
def execNot (dr sr : RegSel) (s : State) : Host.Outcome State Fault Refusal :=
  .next (s.writeRegSetcc dr (~~~ s.x sr))

end Sys2Proof.Machine
end

