-- ==== Sys2Proof/Machine/Services.lean ====
section
/-! DEFINITION. The six trap services, as what happens after TRAP's link write: spec/43_trap_system.md R122, R124 to
R130. -/

namespace Sys2Proof.Machine

/-- GETC from its HostIn() on (R124): the byte, zero-extended, into x[0]; setcc(0). -/
def getcRead (s : State) : Flow :=
  hostIn .getc (fun c s => .done (s.writeRegSetcc 0#3 (zext c))) s

/-- IN from its HostIn() on (R127): the echo, then x[0] and the flags as for GETC (D13; log 20). -/
def inRead (s : State) : Flow :=
  hostIn .inp (fun c s => (hostOut c s).andThen fun s => .done (s.writeRegSetcc 0#3 (zext c))) s

/-- A waiting service goes on at its HostIn(): the prompt is not sent again (D15, I6). -/
def resume : WaitPoint → State → Flow
  | .getc => getcRead
  | .inp => inRead

/-- GETC (R124). -/
def svcGetc (s : State) : Flow := getcRead s

/-- OUT (R125): the low byte of x[0], then a flush point. -/
def svcOut (s : State) : Flow :=
  (hostOut (lowByte (s.x 0#3)) s).andThen fun s => .done (hostFlush s)

/-- The bytes PUTS sends for a word that is not the terminator (R126): one byte up to 0x00FF, above it PUTS_WIDE, which
is open (D10; log 6). -/
def putsChar (w : Word) : List Byte := if w.toNat ≤ 0x00FF then [lowByte w] else Config.putsWide w

/-- How many words a string service may read before it is known never to end. The address runs round the 65536 words,
and memory does not change meanwhile (R122), so one round without a terminator means no terminator; a sink with room
for `n` bytes fails within `n + 1` rounds if a round sends any byte at all. -/
def State.stringFuel (s : State) : Nat :=
  match s.sinkRoom with
  | none => 65536
  | some n => 65536 * (n + 1)

/-- PUTS's loop from address `a` (R126): the whole word is compared with zero; the address wraps. -/
def putsLoop : Nat → Word → State → Flow
  | 0, _, _ => .endless
  | fuel + 1, a, s =>
    if s.memRead a = 0x0000#16 then .done s
    else (hostOutAll (putsChar (s.memRead a)) s).andThen (putsLoop fuel (a + 1))

/-- PUTS (R126). -/
def svcPuts (s : State) : Flow :=
  (putsLoop s.stringFuel (s.x 0#3) s).andThen fun s => .done (hostFlush s)

/-- IN (R127): the prompt, a flush point, then the read. -/
def svcIn (s : State) : Flow :=
  (hostOutAll s.cfg.inPrompt s).andThen fun s => inRead (hostFlush s)

/-- PUTSP's loop from address `a` (R128): low byte, then high byte, up to the first zero byte in either half (D14;
log 10). -/
def putspLoop : Nat → Word → State → Flow
  | 0, _, _ => .endless
  | fuel + 1, a, s =>
    if lowByte (s.memRead a) = 0x00#8 then .done s
    else (hostOut (lowByte (s.memRead a)) s).andThen fun t =>
      if highByte (s.memRead a) = 0x00#8 then .done t
      else (hostOut (highByte (s.memRead a)) t).andThen (putspLoop fuel (a + 1))

/-- PUTSP (R128). -/
def svcPutsp (s : State) : Flow :=
  (putspLoop s.stringFuel (s.x 0#3) s).andThen fun s => .done (hostFlush s)

/-- HALT (R129): the notice, a flush point (log 16), then `run <- HALTED`. -/
def svcHalt (s : State) : Flow :=
  (hostOutAll s.cfg.haltNotice s).andThen fun s => .done ((hostFlush s).setRun .halted)

/-- The trap table (R120, R121): the six vectors, and InvalidTrapVector for every other (R130). -/
def trapTable (trapvect8 : BitVec 8) (s : State) : Flow :=
  if trapvect8 = 0x20#8 then svcGetc s
  else if trapvect8 = 0x21#8 then svcOut s
  else if trapvect8 = 0x22#8 then svcPuts s
  else if trapvect8 = 0x23#8 then svcIn s
  else if trapvect8 = 0x24#8 then svcPutsp s
  else if trapvect8 = 0x25#8 then svcHalt s
  else .raised (raise (.invalidTrapVector trapvect8) s)

end Sys2Proof.Machine
end

