-- ==== Sys2Proof/Machine/Trap.lean ====
section
/-! DEFINITION. TRAP and its six service rows, RTI, the reserved opcode: spec/43_trap_system.md R120 to R132. TRAP is no
transfer of control (R150): it writes the link and the block performs the service inside the step. -/

namespace Sys2Proof.Machine

/-- TRAP (R120): the link first, for every vector, then the trap table. -/
def execTrap (trapvect8 : BitVec 8) (s : State) : Host.Outcome State Fault Refusal :=
  (trapTable trapvect8 (link s)).outcome

/-- GETC (R124), after TRAP's link write (R120). -/
def execGetc (s : State) : Host.Outcome State Fault Refusal := (svcGetc (link s)).outcome

/-- OUT (R125), after TRAP's link write. -/
def execOut (s : State) : Host.Outcome State Fault Refusal := (svcOut (link s)).outcome

/-- PUTS (R126), after TRAP's link write. -/
def execPuts (s : State) : Host.Outcome State Fault Refusal := (svcPuts (link s)).outcome

/-- IN (R127), after TRAP's link write. -/
def execIn (s : State) : Host.Outcome State Fault Refusal := (svcIn (link s)).outcome

/-- PUTSP (R128), after TRAP's link write. -/
def execPutsp (s : State) : Host.Outcome State Fault Refusal := (svcPutsp (link s)).outcome

/-- HALT (R129), after TRAP's link write. -/
def execHalt (s : State) : Host.Outcome State Fault Refusal := (svcHalt (link s)).outcome

/-- RTI (R131): raise UnsupportedInstruction(ir). Nothing is read or written. -/
def execRti (pad : BitVec 12) (s : State) : Host.Outcome State Fault Refusal :=
  .next (raise (.unsupportedInstruction (encode (.rti pad))) s)

/-- The reserved opcode (R132): raise InvalidOpcode(ir). Nothing is read or written. -/
def execRes (pad : BitVec 12) (s : State) : Host.Outcome State Fault Refusal :=
  .next (raise (.invalidOpcode (encode (.res pad))) s)

end Sys2Proof.Machine
end

