-- ==== Sys2Proof/Machine/Dispatch.lean ====
section
/-! DEFINITION. `execute(ir)` of spec/10_state.md R20 on a decoded instruction: one arm per row of the opcode table.
`pc` already holds `pc_inc`. Pad bits are not passed on (spec/30_encoding.md R60), but to the two stopping opcodes. -/

namespace Sys2Proof.Machine

def exec (i : Instr) (s : State) : Host.Outcome State Fault Refusal :=
  match i with
  | .addReg dr sr1 _ sr2 => Sys2Proof.Machine.execAddReg dr sr1 sr2 s
  | .addImm dr sr1 imm5 => Sys2Proof.Machine.execAddImm dr sr1 imm5 s
  | .andReg dr sr1 _ sr2 => Sys2Proof.Machine.execAndReg dr sr1 sr2 s
  | .andImm dr sr1 imm5 => Sys2Proof.Machine.execAndImm dr sr1 imm5 s
  | .not dr sr _ => Sys2Proof.Machine.execNot dr sr s
  | .br n z p pcOffset9 => Sys2Proof.Machine.execBr n z p pcOffset9 s
  | .jmp _ baseR _ => Sys2Proof.Machine.execJmp baseR s
  | .jsr pcOffset11 => Sys2Proof.Machine.execJsr pcOffset11 s
  | .jsrr _ baseR _ => Sys2Proof.Machine.execJsrr baseR s
  | .ld dr pcOffset9 => Sys2Proof.Machine.execLd dr pcOffset9 s
  | .ldi dr pcOffset9 => Sys2Proof.Machine.execLdi dr pcOffset9 s
  | .lea dr pcOffset9 => Sys2Proof.Machine.execLea dr pcOffset9 s
  | .st sr pcOffset9 => Sys2Proof.Machine.execSt sr pcOffset9 s
  | .sti sr pcOffset9 => Sys2Proof.Machine.execSti sr pcOffset9 s
  | .ldr dr baseR offset6 => Sys2Proof.Machine.execLdr dr baseR offset6 s
  | .str sr baseR offset6 => Sys2Proof.Machine.execStr sr baseR offset6 s
  | .trap _ trapvect8 => Sys2Proof.Machine.execTrap trapvect8 s
  | .rti pad => Sys2Proof.Machine.execRti pad s
  | .res pad => Sys2Proof.Machine.execRes pad s
  | .getc _ => Sys2Proof.Machine.execGetc s
  | .out _ => Sys2Proof.Machine.execOut s
  | .puts _ => Sys2Proof.Machine.execPuts s
  | .inp _ => Sys2Proof.Machine.execIn s
  | .putsp _ => Sys2Proof.Machine.execPutsp s
  | .halt _ => Sys2Proof.Machine.execHalt s
  | .ret _ _ => Sys2Proof.Machine.execRet s
  | .nop pcOffset9 => Sys2Proof.Machine.execNop pcOffset9 s

end Sys2Proof.Machine
end

