-- ==== Sys2Proof/Machine/Environment.lean ====
section
/-! DEFINITION. The host's transactions (spec/92_eei_decisions.md D18): reset, the loader, the input stream's supply,
and the host's view of the output; and what one step does while a service waits. -/

namespace Sys2Proof.Machine

/-- Reset applied in any run state (R170, D18): registers, pc, cond, run and output as R27 says, no step in progress;
memory untouched, and the host's side of the streams its own (R171; log 22). -/
def State.applyReset (s : State) : State := State.resetWith s.cfg s.mem s.input s.sinkRoom

/-- The loader writes words into a contiguous range of memory (R176(a)); addresses wrap (R31). -/
def State.loadWords : Word → List Word → State → State
  | _, [], s => s
  | a, w :: ws, s => State.loadWords (a + 1) ws (s.memWrite a w)

/-- The loader leaves `pc` at ENTRY_PC; without an entry it stays at RESET_PC (R176(b), C2). -/
def State.setEntry (entry : Option Word) (s : State) : State :=
  match entry with
  | none => s
  | some a => s.setPc a

/-- The launch state of a run (R176): the reset state with the loader's writes applied. -/
def State.launch (cfg : Config) (memInit : Memory) (input : List HostInput) (sinkRoom : Option Nat)
    (base : Word) (program : List Word) (entry : Option Word) : State :=
  (State.loadWords base program (State.resetWith cfg memInit input sinkRoom)).setEntry entry

/-- The host supplies a further outcome of HostIn(): a byte, or the end of the stream (R25). -/
def State.supply (i : HostInput) (s : State) : State := s.setInput (s.input ++ [i])

/-- The bytes the host has been sent, in order: flush marks are not observable (R26, D22, I18). -/
def State.outputBytes (s : State) : List Byte :=
  s.output.filterMap fun
    | .byte b => some b
    | .flush => none

/-- A step while a service waits inside its step (R25(b)): the service goes on at its HostIn(). -/
def resumeStep (point : WaitPoint) (s : State) : Host.Outcome State Fault Refusal := (resume point s).outcome

/-- An instruction word of a row placed where the next fetch finds it, on a block that fetches: running, not waiting. -/
def State.placeWord (w : Nat) (s : State) : State :=
  ((s.memWrite s.pc (BitVec.ofNat 16 w)).setRun .running).setWaiting none

end Sys2Proof.Machine
end

