-- ==== Sys2Proof/Machine/Step.lean ====
section
/-! DEFINITION. One step of the block: spec/10_state.md section 7. -/

namespace Sys2Proof.Machine

/-- One step (R20): while RUNNING, fetch, advance, execute; a step that waits for input goes on at its HostIn() (R25(b);
log 14). In HALTED and FAULTED a step has no effect (R19, D24, I17; log 12). -/
def step (s : State) : Host.Outcome State Fault Refusal :=
  match s.run with
  | .running =>
    match s.waiting with
    | none => exec (decode s.fetch) s.advance
    | some point => resumeStep point s
  | .halted => .next s
  | .faulted _ => .next s

/-- The state with a row's word where `step` fetches its next instruction (R20). An instruction is one word (R50), so
`nbits` is not needed: the bits above it are zero (log 21). -/
def State.withFetchWord (s : State) (_nbits w : Nat) : State := s.placeWord w

end Sys2Proof.Machine
end

