-- ==== Sys2Proof/Machine/Access.lean ====
section
/-! DEFINITION. The memory interface's transactions: the data accesses of an instruction in the order they are made
(spec/20_memory.md R38). They are computed from the state the instruction executes in, where `pc` holds `pc_inc`. -/

namespace Sys2Proof.Machine

/-- One access of the memory interface (R6, R32, R33). -/
inductive Access where
  | read (addr : Word)
  | write (addr v : Word)
deriving DecidableEq, Repr

/-- PUTS's reads from address `a`: up to and including the first zero word (R38), or, where the sink fails, up to the
word whose byte it would not take (log 27). A string that never ends gives the reads of `fuel` words. -/
def putsReads : Nat → Word → State → List Access
  | 0, _, _ => []
  | fuel + 1, a, s =>
    .read a ::
      (if s.memRead a = 0x0000#16 then []
       else match hostOutAll (putsChar (s.memRead a)) s with
        | .done t => putsReads fuel (a + 1) t
        | _ => [])

/-- PUTSP's reads from address `a`: up to and including the first word that holds a zero byte (R38; log 27). -/
def putspReads : Nat → Word → State → List Access
  | 0, _, _ => []
  | fuel + 1, a, s =>
    .read a ::
      (if lowByte (s.memRead a) = 0x00#8 ∨ highByte (s.memRead a) = 0x00#8 then []
       else match hostOutAll [lowByte (s.memRead a), highByte (s.memRead a)] s with
        | .done t => putspReads fuel (a + 1) t
        | _ => [])

/-- The reads of the trap services (R38): PUTS and PUTSP alone. -/
def trapReads (trapvect8 : BitVec 8) (s : State) : List Access :=
  if trapvect8 = 0x22#8 then putsReads s.stringFuel (s.x 0#3) s
  else if trapvect8 = 0x24#8 then putspReads s.stringFuel (s.x 0#3) s
  else []

/-- The data accesses of an instruction, after the fetch, in order: the table of R38. -/
def dataAccesses (i : Instr) (s : State) : List Access :=
  match i with
  | .addReg .. | .addImm .. | .andReg .. | .andImm .. | .not .. => []
  | .br .. | .nop .. | .jmp .. | .ret .. | .jsr .. | .jsrr .. | .lea .. => []
  | .ld _ pcOffset9 => [.read (s.pcRelative pcOffset9)]
  | .ldi _ pcOffset9 => [.read (s.pcRelative pcOffset9), .read (s.indirect pcOffset9)]
  | .ldr _ baseR offset6 => [.read (s.basePlusOffset baseR offset6)]
  | .st sr pcOffset9 => [.write (s.pcRelative pcOffset9) (s.x sr)]
  | .sti sr pcOffset9 => [.read (s.pcRelative pcOffset9), .write (s.indirect pcOffset9) (s.x sr)]
  | .str sr baseR offset6 => [.write (s.basePlusOffset baseR offset6) (s.x sr)]
  | .trap _ trapvect8 => trapReads trapvect8 (link s)
  | .puts _ => trapReads 0x22#8 (link s)
  | .putsp _ => trapReads 0x24#8 (link s)
  | .getc _ | .out _ | .inp _ | .halt _ | .rti _ | .res _ => []

/-- The accesses of one step, the fetch first (R38); none where no instruction is fetched. -/
def State.stepAccesses (s : State) : List Access :=
  if s.run = .running ∧ s.waiting = none then .read s.pc :: dataAccesses (decode s.fetch) s.advance else []

/-- A memory after the writes of a list of accesses, in order (R39). -/
def applyWrites : List Access → Memory → Memory
  | [], m => m
  | .read _ :: rest, m => applyWrites rest m
  | .write a v :: rest, m => applyWrites rest (m.write a v)

end Sys2Proof.Machine
end

