-- ==== Sys2Proof/Safety.lean ====
section
/-! DEFINITION. The terms claims are stated in: the invariant of the block, what a good and a bad end of a run are, the
flags and the signed offsets as numbers, and the frames (what an instruction leaves as it was). -/

namespace Sys2Proof.Machine

/-! ### Ends of a run -/

/-- The one successful end of a run (R19, R22). -/
def State.GoodEnd (s : State) : Prop := s.run = .halted

/-- An abnormal end of a run (R141): never a successful one. -/
def State.BadEnd (s : State) : Prop := ∃ c, s.run = .faulted c

/-! ### The invariant -/

/-- The bytes of a list as items of the output stream. -/
def asOutput (bs : List Byte) : List HostOutput := bs.map .byte

/-- What every step keeps: memory is in canonical form; a service that waits is inside a step of a running block, with
TRAP's link written and, for IN, the prompt sent (R25, R120, R127). -/
structure State.Inv (s : State) : Prop where
  memory : s.mem.wf = true
  waitRuns : s.waiting ≠ none → s.run = .running
  waitLinked : s.waiting ≠ none → s.x 7#3 = s.pc
  waitPrompted : s.waiting = some .inp → ∃ before, s.output = before ++ asOutput s.cfg.inPrompt ++ [.flush]

/-! ### Flags and offsets as numbers -/

/-- `c` is the flag R16 gives for the register value `v`, by number: 0 is Z, 0x8000 .. 0xFFFF is N, the rest P. -/
structure FlagsFor (v : Word) (c : Cond) : Prop where
  zero : v.toNat = 0 → c = .Z
  negative : 0x8000 ≤ v.toNat → c = .N
  positive : 0 < v.toNat ∧ v.toNat < 0x8000 → c = .P

/-- The number of a sign-extended field, by R56's formula: `v` below `2^(n-1)`, else `v + 65536 - 2^n`. -/
def sextNumber {n : Nat} (v : BitVec n) : Nat := if v.toNat < 2 ^ (n - 1) then v.toNat else v.toNat + 65536 - 2 ^ n

/-! ### Frames -/

/-- The host's side and the parameters are as they were: both streams, the sink, no wait begun or ended. -/
structure HostSame (s t : State) : Prop where
  input : t.input = s.input
  output : t.output = s.output
  sinkRoom : t.sinkRoom = s.sinkRoom
  waiting : t.waiting = s.waiting
  cfg : t.cfg = s.cfg

/-- Every word of memory reads as it did. -/
def MemorySame (s t : State) : Prop := ∀ a, t.memRead a = s.memRead a

/-- Every register but those listed is as it was. -/
def RegsSameBut (ds : List RegSel) (s t : State) : Prop := ∀ r, r ∉ ds → t.x r = s.x r

/-- `v` went to `x[d]` and the flags tell of it; everything else is as it was (R86, R108). -/
structure WroteRegCond (d : RegSel) (v : Word) (s t : State) : Prop where
  dest : t.x d = v
  flags : FlagsFor v t.cond
  regs : RegsSameBut [d] s t
  pc : t.pc = s.pc
  run : t.run = s.run
  memory : MemorySame s t
  host : HostSame s t

/-- `v` went to the word at `a`; everything else is as it was (R108). -/
structure WroteMemory (a v : Word) (s t : State) : Prop where
  stored : t.memRead a = v
  memory : ∀ b, b ≠ a → t.memRead b = s.memRead b
  regs : RegsSameBut [] s t
  cond : t.cond = s.cond
  pc : t.pc = s.pc
  run : t.run = s.run
  host : HostSame s t

/-- `target` went to `pc` and the registers listed may have been written; everything else is as it was. -/
structure WrotePc (target : Word) (ds : List RegSel) (s t : State) : Prop where
  pc : t.pc = target
  regs : RegsSameBut ds s t
  cond : t.cond = s.cond
  run : t.run = s.run
  memory : MemorySame s t
  host : HostSame s t

/-- What every TRAP that answers a next state does beside its service (R120, R150): the link written, `pc` left at
`pc_inc`, memory and the parameters as they were, and no register but `x[7]` and those listed written. -/
structure TrapFrame (ds : List RegSel) (s t : State) : Prop where
  linked : t.x 7#3 = s.pc
  regs : RegsSameBut (7#3 :: ds) s t
  pc : t.pc = s.pc
  memory : MemorySame s t
  cfg : t.cfg = s.cfg

/-- The sink takes `n` further bytes. -/
def State.sinkTakes (s : State) (n : Nat) : Prop := s.sinkRoom = none ∨ ∃ m, s.sinkRoom = some m ∧ n ≤ m

/-- The sink's room after `n` further bytes. -/
def State.roomAfter (s : State) (n : Nat) : Option Nat := s.sinkRoom.map (· - n)

end Sys2Proof.Machine

/-! ### What a row may do -/

namespace Sys2Proof

/-- The destination register whose value the flags tell of, for each row that writes the flags (R17). -/
def Instr.flagRegister : Instr → Option RegSel
  | .addReg dr .. | .addImm dr .. | .andReg dr .. | .andImm dr .. | .not dr .. => some dr
  | .ld dr _ | .ldi dr _ | .lea dr _ => some dr
  | .ldr dr .. => some dr
  | .getc _ | .inp _ => some 0#3
  | .trap _ v => if v = 0x20#8 ∨ v = 0x23#8 then some 0#3 else none
  | .br .. | .jmp .. | .jsr .. | .jsrr .. | .st .. | .sti .. | .str .. => none
  | .rti .. | .res .. | .out .. | .puts .. | .putsp .. | .halt .. | .ret .. | .nop .. => none

/-- The registers a row may write (R12): its destination, `x[7]` for JSR, JSRR and TRAP, `x[0]` for GETC and IN. -/
def Instr.mayWrite : Instr → List RegSel
  | .addReg dr .. | .addImm dr .. | .andReg dr .. | .andImm dr .. | .not dr .. => [dr]
  | .ld dr _ | .ldi dr _ | .lea dr _ => [dr]
  | .ldr dr .. => [dr]
  | .jsr .. | .jsrr .. => [7#3]
  | .getc _ | .inp _ => [7#3, 0#3]
  | .trap _ v => if v = 0x20#8 ∨ v = 0x23#8 then [7#3, 0#3] else [7#3]
  | .out .. | .puts .. | .putsp .. | .halt .. => [7#3]
  | .br .. | .jmp .. | .st .. | .sti .. | .str .. | .rti .. | .res .. | .ret .. | .nop .. => []

/-- The row reads the flags (R17): BR alone (NOP is BR with no flag requested). -/
def Instr.readsCond : Instr → Bool
  | .br .. => true
  | .addReg .. | .addImm .. | .andReg .. | .andImm .. | .not .. | .jmp .. | .jsr .. | .jsrr .. => false
  | .ld .. | .ldi .. | .lea .. | .st .. | .sti .. | .ldr .. | .str .. | .trap .. | .rti .. | .res .. => false
  | .getc .. | .out .. | .puts .. | .inp .. | .putsp .. | .halt .. | .ret .. | .nop .. => false

/-- The register whose word a storing row stores (R104 to R106); none for a row that stores nothing. -/
def Instr.storeSource : Instr → Option RegSel
  | .st sr _ | .sti sr _ => some sr
  | .str sr .. => some sr
  | .addReg .. | .addImm .. | .andReg .. | .andImm .. | .not .. | .br .. | .jmp .. | .jsr .. | .jsrr .. => none
  | .ld .. | .ldi .. | .lea .. | .ldr .. | .trap .. | .rti .. | .res .. => none
  | .getc .. | .out .. | .puts .. | .inp .. | .putsp .. | .halt .. | .ret .. | .nop .. => none

/-- The address a storing row stores to, by the expression its meaning uses; none for a row that stores nothing. -/
def Instr.storeAddress (i : Instr) (s : Machine.State) : Option Word :=
  match i with
  | .st _ pcOffset9 => some (s.pcRelative pcOffset9)
  | .sti _ pcOffset9 => some (s.indirect pcOffset9)
  | .str _ baseR offset6 => some (s.basePlusOffset baseR offset6)
  | .addReg .. | .addImm .. | .andReg .. | .andImm .. | .not .. | .br .. | .jmp .. | .jsr .. | .jsrr .. => none
  | .ld .. | .ldi .. | .lea .. | .ldr .. | .trap .. | .rti .. | .res .. => none
  | .getc .. | .out .. | .puts .. | .inp .. | .putsp .. | .halt .. | .ret .. | .nop .. => none

end Sys2Proof
end

