-- ==== Sys2Proof/Certificates/Slice0/Obligations.lean ====
section
/-! DEFINITION. The statements for the provers, from the numbered rules of spec/. `exec i s` is the execute phase: in
`s`, `pc` already holds `pc_inc` (spec/00_scope.md R8). Frames, flags and numbers are those of Safety.lean. -/

open Sys2Proof Sys2Proof.Machine

/-! ### Reset, launch, the step -/

/-- 10_state.md R27, for every value of the parameters, every launch content of memory and every host. -/
def Obligations.ResetValues : Prop :=
  ∀ (cfg : Config) (memInit : Memory) (input : List HostInput) (room : Option Nat),
    let s := State.resetWith cfg memInit input room
    (∀ r, s.x r = 0x0000) ∧ s.pc = cfg.resetPc ∧ s.cond = .Z ∧ s.condWord = cfg.flZro ∧ s.run = .running ∧
      s.output = [] ∧ ∀ a, s.memRead a = memInit.read a

/-- The values `State.reset` has beside those of R27. RESET_PC = 0x3000 is the spec's default (decision D5, log 2); the
empty memory, the silent host and the unfailing sink are the model's choices (log 1, 13, 15). -/
def Obligations.ResetStateChoices : Prop :=
  State.reset.pc = 0x3000 ∧ State.reset.mem = [] ∧ State.reset.input = [] ∧ State.reset.sinkRoom = none ∧
    State.reset.waiting = none ∧ Config.flagsDistinct State.reset.cfg = true

/-- 70_reset_and_hazards.md R170: what reset does from any run state, and that only reset leaves HALTED and FAULTED
(reading R170's "only way out" as: a step from either changes nothing). The values of the parameters are arbitrary. -/
def Obligations.ResetFromAnyState : Prop :=
  ∀ s : State,
    ((∀ r, s.applyReset.x r = 0x0000) ∧ s.applyReset.pc = s.cfg.resetPc ∧ s.applyReset.cond = .Z ∧
      s.applyReset.run = .running ∧ s.applyReset.output = [] ∧ MemorySame s s.applyReset) ∧
    (s.GoodEnd ∨ s.BadEnd → step s = .next s)

/-- 70_reset_and_hazards.md R176 (the launch state; log 21): the loader's words stand in memory from `base` on, every
other word is as the launch content had it, and `pc` is the entry, or RESET_PC without one; every other field is as the
reset state has it. -/
def Obligations.LaunchState : Prop :=
  ∀ (cfg : Config) (memInit : Memory) (input : List HostInput) (room : Option Nat) (base : Word)
    (program : List Word) (entry : Option Word), memInit.wf = true → program.length ≤ 65536 →
    let s := State.launch cfg memInit input room base program entry
    (∀ k (h : k < program.length), s.memRead (base + BitVec.ofNat 16 k) = program[k]) ∧
      (∀ a, (∀ k < program.length, a ≠ base + BitVec.ofNat 16 k) → s.memRead a = memInit.read a) ∧
      s.mem.wf = true ∧ s.pc = entry.getD cfg.resetPc ∧ (∀ r, s.x r = 0x0000) ∧ s.cond = .Z ∧ s.run = .running ∧
      s.input = input ∧ s.output = [] ∧ s.sinkRoom = room ∧ s.waiting = none ∧ s.cfg = cfg

/-- The source's end-to-end scenario (70_reset_and_hazards.md R178, 95_test_vectors.md V8), for every RESET_PC and every
launch content: ADD R0,R0,#5 = 0x1025 at the reset address. The word rests on D1 to D3 (log 8). -/
def Obligations.FirstStepOfEndToEndScenario : Prop :=
  ∀ (cfg : Config) (memInit : Memory) (input : List HostInput) (room : Option Nat), memInit.wf = true →
    ∃ t, step (State.launch cfg memInit input room cfg.resetPc [0x1025] none) = .next t ∧
      t.x 0#3 = 5 ∧ t.cond = .P ∧ t.pc = cfg.resetPc + 1

/-- 10_state.md R20: while RUNNING (and no service waits), a step reads the word at `pc`, advances `pc` by one modulo
65536, and executes what the word decodes to. The fetch is the step's first memory access (20_memory.md R38). -/
def Obligations.StepFetchesAdvancesExecutes : Prop :=
  ∀ s : State, s.run = .running → s.waiting = none →
    ∃ u : State, step s = exec (decode (s.memRead s.pc)) u ∧ u.pc = BitVec.ofNat 16 (s.pc.toNat + 1) ∧
      u = { s with pc := u.pc } ∧ s.stepAccesses = .read s.pc :: dataAccesses (decode (s.memRead s.pc)) u

/-- `withFetchWord` puts a row's word where the next step fetches it: from every state with a memory in canonical form
the very next step runs exactly that instruction (log 21). -/
def Obligations.PlacedWordIsRunNext : Prop :=
  ∀ (s : State) (nbits : Nat) (w : Word), s.mem.wf = true →
    ∃ u : State, step (s.withFetchWord nbits w.toNat) = exec (decode w) u ∧ u.pc = s.pc + 1 ∧ u.regs = s.regs ∧
      u.cond = s.cond ∧ u.memRead s.pc = w ∧ (∀ a, a ≠ s.pc → u.memRead a = s.memRead a) ∧ u.input = s.input ∧
      u.output = s.output

/-- 10_state.md R18 and R15: the ten words of the register file, `pc` at index 8 and the flags register at index 9 (the
indices are the spec's inference, D7; log 24), and the flags register tells the condition. -/
def Obligations.RegisterFileHoldsTheState : Prop :=
  ∀ s : State, s.registerFile.length = 10 ∧ (∀ r : RegSel, s.registerFile[r.toNat]? = some (s.x r)) ∧
    s.registerFile[8]? = some s.pc ∧ s.registerFile[9]? = some s.condWord ∧
    (Config.flagsDistinct s.cfg = true → ∀ t : State, t.cfg = s.cfg → t.condWord = s.condWord → t.cond = s.cond)

/-! ### Encoding -/

/-- 30_encoding.md R56: the low `N` bits are the field, every bit above is its top bit, and the number is R56's, for the
four widths in use. -/
def Obligations.SignExtensionIsBitExact : Prop :=
  ∀ n, n = 5 ∨ n = 6 ∨ n = 9 ∨ n = 11 → ∀ v : BitVec n,
    (∀ i < n, (sext v).getLsbD i = v.getLsbD i) ∧
      (∀ i < 16, n ≤ i → (sext v).getLsbD i = v.getLsbD (n - 1)) ∧ (sext v).toNat = sextNumber v

/-- 30_encoding.md R58 (truncation is its decision D4): a field written is the value's low bits, every other bit of the
word is kept. -/
def Obligations.FieldWriteReadsBack : Prop :=
  ∀ (lo n : Nat) (w v : Word), lo + n ≤ 16 →
    (field lo n (withField lo n w v)).toNat = v.toNat % 2 ^ n ∧
      ∀ i < 16, i < lo ∨ lo + n ≤ i → (withField lo n w v).getLsbD i = w.getLsbD i

/-- 30_encoding.md R59 (pad ranges are fields by D4): extracting the fields of a word's own format and re-inserting them
gives the word, for every word. -/
def Obligations.CodecRoundTrip : Prop :=
  ∀ w : Word, (decode w).row.format.assemble ((decode w).row.format.extract w) = w

/-- Decoding then encoding is the identity on all 65536 words (30_encoding.md R59, by D4), and every word decodes to a
well-formed instruction. -/
def Obligations.EncodeOfDecodeIsIdentity : Prop :=
  ∀ w : Word, encode (decode w) = w ∧ (decode w).WellFormed = true

/-- Encoding then decoding gives back every well-formed instruction, with every operand at every value. -/
def Obligations.DecodeOfEncodeIsIdentity : Prop :=
  ∀ i : Instr, i.WellFormed = true → decode (encode i) = i

/-- 30_encoding.md R63 (numbers by D1 to D4): every word is selected by exactly one of the 19 core rows, the decoder's
instruction is of a row that selects it, and an alias row's words are exactly those decoded to its constructor (log 19). -/
def Obligations.RowsPartitionTheWords : Prop :=
  ∀ w : Word, (coreRows.filter fun r => r.selects w).length = 1 ∧ (decode w).row.selects w = true ∧
    ∀ r ∈ aliasRows, r.selects w = true ↔ (decode w).row = r

/-- 30_encoding.md R60 (by D4): a word executes as the word with canonical pad bits does; for the two stopping opcodes
the two states differ in the instruction word the cause reports (60_exceptions.md R140, by D21) alone. -/
def Obligations.PadBitsDoNotMatter : Prop :=
  ∀ (i : Instr) (s : State),
    ((∀ p, i ≠ .rti p ∧ i ≠ .res p) → exec i.canonical s = exec i s) ∧
      (∀ p, i = .rti p → ∃ t u, exec i.canonical s = .next t ∧ exec i s = .next u ∧
        t = u.setRun (.faulted (.unsupportedInstruction (encode i.canonical))) ∧
        u.run = .faulted (.unsupportedInstruction (encode i))) ∧
      (∀ p, i = .res p → ∃ t u, exec i.canonical s = .next t ∧ exec i s = .next u ∧
        t = u.setRun (.faulted (.invalidOpcode (encode i.canonical))) ∧
        u.run = .faulted (.invalidOpcode (encode i)))

/-- Sample words, each written from its row of 30_encoding.md R63 and 95_test_vectors.md section 2 (D1 to D4), and the
pseudo-instructions' words of R65 (spelling by D23). -/
def Obligations.SampleWordsDecode : Prop :=
  decode 0x195E = .addReg 4 5 3 6 ∧ decode 0x16F0 = .addImm 3 3 0x10 ∧ decode 0x5401 = .andReg 2 0 0 1 ∧
    decode 0x923F = .not 1 0 0x3F ∧ decode 0x0BFC = .br true false true 0x1FC ∧ decode 0xCEBF = .jmp 7 2 0x3F ∧
    decode 0x4FFE = .jsr 0x7FE ∧ decode 0x41C0 = .jsrr 0 7 0 ∧ decode 0xA401 = .ldi 2 1 ∧
    decode 0x72A0 = .str 1 2 0x20 ∧ decode 0xFA25 = .halt 0xA ∧ decode 0x8ABC = .rti 0xABC ∧
    decode 0xC1C0 = .ret 0 0 ∧ decode 0x0000 = .nop 0 ∧ decode 0xDFFF = .res 0xFFF ∧
    pseudoInstructions.map (fun p => (p.1, encode p.2)) =
      [("RET", 0xC1C0), ("GETC", 0xF020), ("OUT", 0xF021), ("PUTS", 0xF022), ("IN", 0xF023), ("PUTSP", 0xF024),
       ("HALT", 0xF025), ("NOP", 0x0000)]

/-! ### Operate instructions

The opcode numbers, field positions and mode bits of the `decode` clauses, here and below, are R52 to R55's, by the
spec's decisions D1 to D3 (log 8); each rule repeats them in its own "Selected when". -/

/-- 40_operate.md R81: selection, operands, sum, flags, no fault, no data access, and the frame. -/
def Obligations.AddRegister : Prop :=
  (∀ w : Word, field 12 4 w = 1#4 → w.getLsbD 5 = false →
    decode w = .addReg (field 9 3 w) (field 6 3 w) (field 3 2 w) (field 0 3 w)) ∧
  ∀ (dr sr1 sr2 : RegSel) (pad : BitVec 2) (s : State),
    dataAccesses (.addReg dr sr1 pad sr2) s = [] ∧ ∃ t, exec (.addReg dr sr1 pad sr2) s = .next t ∧
      WroteRegCond dr (BitVec.ofNat 16 ((s.x sr1).toNat + (s.x sr2).toNat)) s t

/-- 40_operate.md R82. -/
def Obligations.AddImmediate : Prop :=
  (∀ w : Word, field 12 4 w = 1#4 → w.getLsbD 5 = true →
    decode w = .addImm (field 9 3 w) (field 6 3 w) (field 0 5 w)) ∧
  ∀ (dr sr1 : RegSel) (imm5 : BitVec 5) (s : State),
    dataAccesses (.addImm dr sr1 imm5) s = [] ∧ ∃ t, exec (.addImm dr sr1 imm5) s = .next t ∧
      WroteRegCond dr (BitVec.ofNat 16 ((s.x sr1).toNat + sextNumber imm5)) s t

/-- 40_operate.md R83: bit `i` of the result is 1 exactly when bit `i` of both sources is. -/
def Obligations.AndRegister : Prop :=
  (∀ w : Word, field 12 4 w = 5#4 → w.getLsbD 5 = false →
    decode w = .andReg (field 9 3 w) (field 6 3 w) (field 3 2 w) (field 0 3 w)) ∧
  ∀ (dr sr1 sr2 : RegSel) (pad : BitVec 2) (s : State),
    dataAccesses (.andReg dr sr1 pad sr2) s = [] ∧ ∃ t v, exec (.andReg dr sr1 pad sr2) s = .next t ∧
      (∀ i < 16, v.getLsbD i = ((s.x sr1).getLsbD i && (s.x sr2).getLsbD i)) ∧ WroteRegCond dr v s t

/-- 40_operate.md R84: the mask is the sign-extended immediate. -/
def Obligations.AndImmediate : Prop :=
  (∀ w : Word, field 12 4 w = 5#4 → w.getLsbD 5 = true →
    decode w = .andImm (field 9 3 w) (field 6 3 w) (field 0 5 w)) ∧
  ∀ (dr sr1 : RegSel) (imm5 : BitVec 5) (s : State),
    dataAccesses (.andImm dr sr1 imm5) s = [] ∧ ∃ t v, exec (.andImm dr sr1 imm5) s = .next t ∧
      (∀ i < 16, v.getLsbD i = ((s.x sr1).getLsbD i && (BitVec.ofNat 16 (sextNumber imm5)).getLsbD i)) ∧
      WroteRegCond dr v s t

/-- 40_operate.md R85: the complement is 0xFFFF minus the source. -/
def Obligations.NotComplements : Prop :=
  (∀ w : Word, field 12 4 w = 9#4 → decode w = .not (field 9 3 w) (field 6 3 w) (field 0 6 w)) ∧
  ∀ (dr sr : RegSel) (pad : BitVec 6) (s : State),
    dataAccesses (.not dr sr pad) s = [] ∧ ∃ t, exec (.not dr sr pad) s = .next t ∧
      WroteRegCond dr (BitVec.ofNat 16 (0xFFFF - (s.x sr).toNat)) s t

/-! ### Control instructions -/

/-- 41_control.md R91, for the rows BR and NOP: taken exactly when a requested flag is the current one. The words with
n = z = p = 0 are the row NOP (log 19), never taken. -/
def Obligations.BranchOnFlags : Prop :=
  (∀ w : Word, field 12 4 w = 0#4 →
    decode w = if field 9 3 w = 0#3 then .nop (field 0 9 w)
      else .br (w.getLsbD 11) (w.getLsbD 10) (w.getLsbD 9) (field 0 9 w)) ∧
  (∀ (n z p : Bool) (off : BitVec 9) (s : State),
    dataAccesses (.br n z p off) s = [] ∧ ∃ t, exec (.br n z p off) s = .next t ∧
      ((n = true ∧ s.cond = .N) ∨ (z = true ∧ s.cond = .Z) ∨ (p = true ∧ s.cond = .P) →
        WrotePc (BitVec.ofNat 16 (s.pc.toNat + sextNumber off)) [] s t) ∧
      (¬((n = true ∧ s.cond = .N) ∨ (z = true ∧ s.cond = .Z) ∨ (p = true ∧ s.cond = .P)) → t = s)) ∧
  (∀ (off : BitVec 9) (s : State), dataAccesses (.nop off) s = [] ∧ exec (.nop off) s = .next s ∧
    exec (.br false false false off) s = .next s)

/-- BR's test as a mask (41_control.md R91, 10_state.md R15): with the flag patterns 4, 2, 1 (D6, log 3) a branch is
taken exactly when `(ir[11:9] & cond_register[2:0]) != 0`. -/
def Obligations.BranchTestIsMaskTest : Prop :=
  ∀ (n z p : Bool) (off : BitVec 9) (s : State),
    s.cfg.flNeg = 4 → s.cfg.flZro = 2 → s.cfg.flPos = 1 →
      (brTaken n z p s.cond = true ↔ field 9 3 (encode (.br n z p off)) &&& field 0 3 s.condWord ≠ 0#3)

/-- 41_control.md R92, for the rows JMP and RET. -/
def Obligations.JumpThroughRegister : Prop :=
  (∀ w : Word, field 12 4 w = 12#4 →
    decode w = if field 6 3 w = 7#3 then .ret (field 9 3 w) (field 0 6 w)
      else .jmp (field 9 3 w) (field 6 3 w) (field 0 6 w)) ∧
  (∀ (padHi : BitVec 3) (baseR : RegSel) (padLo : BitVec 6) (s : State),
    dataAccesses (.jmp padHi baseR padLo) s = [] ∧ ∃ t, exec (.jmp padHi baseR padLo) s = .next t ∧
      WrotePc (s.x baseR) [] s t) ∧
  (∀ (padHi : BitVec 3) (padLo : BitVec 6) (s : State),
    dataAccesses (.ret padHi padLo) s = [] ∧ ∃ t, exec (.ret padHi padLo) s = .next t ∧ WrotePc (s.x 7#3) [] s t)

/-- 41_control.md R94: the link, then the PC-relative target. -/
def Obligations.JsrLinksAndJumps : Prop :=
  (∀ w : Word, field 12 4 w = 4#4 → w.getLsbD 11 = true → decode w = .jsr (field 0 11 w)) ∧
  ∀ (off : BitVec 11) (s : State),
    dataAccesses (.jsr off) s = [] ∧ ∃ t, exec (.jsr off) s = .next t ∧ t.x 7#3 = s.pc ∧
      WrotePc (BitVec.ofNat 16 (s.pc.toNat + sextNumber off)) [7#3] s t

/-- 41_control.md R95 (the order is its decision D9, log 9): the link first, so that with base register 7 control falls
through to `pc_inc`. -/
def Obligations.JsrrLinksBeforeItReads : Prop :=
  (∀ w : Word, field 12 4 w = 4#4 → w.getLsbD 11 = false →
    decode w = .jsrr (field 9 2 w) (field 6 3 w) (field 0 6 w)) ∧
  ∀ (padHi : BitVec 2) (baseR : RegSel) (padLo : BitVec 6) (s : State),
    dataAccesses (.jsrr padHi baseR padLo) s = [] ∧ ∃ t, exec (.jsrr padHi baseR padLo) s = .next t ∧ t.x 7#3 = s.pc ∧
      WrotePc (if baseR = 7#3 then s.pc else s.x baseR) [7#3] s t

/-! ### Loads, LEA, stores -/

/-- 42_load_store.md R107's addresses as numbers modulo 65536 (R107 is derived in the spec). -/
def Obligations.EffectiveAddresses : Prop :=
  ∀ (s : State) (off9 : BitVec 9) (off6 : BitVec 6) (baseR : RegSel),
    (s.pcRelative off9).toNat = (s.pc.toNat + sextNumber off9) % 65536 ∧
      s.indirect off9 = s.memRead (BitVec.ofNat 16 (s.pc.toNat + sextNumber off9)) ∧
      (s.basePlusOffset baseR off6).toNat = ((s.x baseR).toNat + sextNumber off6) % 65536

/-- 42_load_store.md R100. -/
def Obligations.LoadPcRelative : Prop :=
  (∀ w : Word, field 12 4 w = 2#4 → decode w = .ld (field 9 3 w) (field 0 9 w)) ∧
  ∀ (dr : RegSel) (off : BitVec 9) (s : State),
    let ea := BitVec.ofNat 16 (s.pc.toNat + sextNumber off)
    dataAccesses (.ld dr off) s = [.read ea] ∧ ∃ t, exec (.ld dr off) s = .next t ∧ WroteRegCond dr (s.memRead ea) s t

/-- 42_load_store.md R101: the pointer, then the word it names. -/
def Obligations.LoadIndirect : Prop :=
  (∀ w : Word, field 12 4 w = 10#4 → decode w = .ldi (field 9 3 w) (field 0 9 w)) ∧
  ∀ (dr : RegSel) (off : BitVec 9) (s : State),
    let ea := BitVec.ofNat 16 (s.pc.toNat + sextNumber off)
    dataAccesses (.ldi dr off) s = [.read ea, .read (s.memRead ea)] ∧ ∃ t, exec (.ldi dr off) s = .next t ∧
      WroteRegCond dr (s.memRead (s.memRead ea)) s t

/-- 42_load_store.md R102. -/
def Obligations.LoadBasePlusOffset : Prop :=
  (∀ w : Word, field 12 4 w = 6#4 → decode w = .ldr (field 9 3 w) (field 6 3 w) (field 0 6 w)) ∧
  ∀ (dr baseR : RegSel) (off : BitVec 6) (s : State),
    let ea := BitVec.ofNat 16 ((s.x baseR).toNat + sextNumber off)
    dataAccesses (.ldr dr baseR off) s = [.read ea] ∧ ∃ t, exec (.ldr dr baseR off) s = .next t ∧
      WroteRegCond dr (s.memRead ea) s t

/-- 42_load_store.md R103: the address itself, no access, and the flags are written. -/
def Obligations.LoadEffectiveAddress : Prop :=
  (∀ w : Word, field 12 4 w = 14#4 → decode w = .lea (field 9 3 w) (field 0 9 w)) ∧
  ∀ (dr : RegSel) (off : BitVec 9) (s : State),
    dataAccesses (.lea dr off) s = [] ∧ ∃ t, exec (.lea dr off) s = .next t ∧
      WroteRegCond dr (BitVec.ofNat 16 (s.pc.toNat + sextNumber off)) s t

/-- 42_load_store.md R104. The memory's canonical form is the invariant `State.Inv` (StepKeepsInvariant). -/
def Obligations.StorePcRelative : Prop :=
  (∀ w : Word, field 12 4 w = 3#4 → decode w = .st (field 9 3 w) (field 0 9 w)) ∧
  ∀ (sr : RegSel) (off : BitVec 9) (s : State), s.mem.wf = true →
    s.pcRelative off = BitVec.ofNat 16 (s.pc.toNat + sextNumber off) ∧
      dataAccesses (.st sr off) s = [.write (s.pcRelative off) (s.x sr)] ∧ ∃ t, exec (.st sr off) s = .next t ∧
      WroteMemory (s.pcRelative off) (s.x sr) s t

/-- 42_load_store.md R105: the pointer is read, then the word is written where it points. -/
def Obligations.StoreIndirect : Prop :=
  (∀ w : Word, field 12 4 w = 11#4 → decode w = .sti (field 9 3 w) (field 0 9 w)) ∧
  ∀ (sr : RegSel) (off : BitVec 9) (s : State), s.mem.wf = true →
    let ea := BitVec.ofNat 16 (s.pc.toNat + sextNumber off)
    s.indirect off = s.memRead ea ∧
      dataAccesses (.sti sr off) s = [.read ea, .write (s.indirect off) (s.x sr)] ∧ ∃ t, exec (.sti sr off) s = .next t ∧
      WroteMemory (s.indirect off) (s.x sr) s t

/-- 42_load_store.md R106. -/
def Obligations.StoreBasePlusOffset : Prop :=
  (∀ w : Word, field 12 4 w = 7#4 → decode w = .str (field 9 3 w) (field 6 3 w) (field 0 6 w)) ∧
  ∀ (sr baseR : RegSel) (off : BitVec 6) (s : State), s.mem.wf = true →
    s.basePlusOffset baseR off = BitVec.ofNat 16 ((s.x baseR).toNat + sextNumber off) ∧
      dataAccesses (.str sr baseR off) s = [.write (s.basePlusOffset baseR off) (s.x sr)] ∧
      ∃ t, exec (.str sr baseR off) s = .next t ∧ WroteMemory (s.basePlusOffset baseR off) (s.x sr) s t

/-- A read after any store, and equal memories are equal data: 20_memory.md R32 and R33 (their decision D16) over the
model's canonical form (log 18). -/
def Obligations.MemoryIsItsContent : Prop :=
  (∀ (m : Memory) (a v b : Word), m.wf = true → (m.write a v).read b = if b = a then v else m.read b) ∧
  ∀ m m' : Memory, m.wf = true → m'.wf = true → (∀ a, m.read a = m'.read a) → m = m'

/-- 20_memory.md R41 (derived there): the word that any store (ST, STI, STR) puts at the next instruction's address is
what the very next step executes, from the state the store left with `pc` advanced. -/
def Obligations.FetchSeesTheStore : Prop :=
  ∀ (s : State) (sr : RegSel), s.run = .running → s.waiting = none → s.mem.wf = true →
    (decode s.fetch).storeSource = some sr → (decode s.fetch).storeAddress s.advance = some (s.pc + 1) →
      ∃ t, step s = .next t ∧ t.pc = s.pc + 1 ∧ step t = exec (decode (s.x sr)) t.advance

/-! ### TRAP, the services, the stopping opcodes -/

/-- 43_trap_system.md R120: the link for every vector, the six services by vector, every other vector raises, a failing
stream raises HostIOFailure; TRAP itself writes no flag; `pc` is left at `pc_inc` and the block goes on but after HALT
and a fault; memory is not written, and TRAP reads it for PUTS and PUTSP alone. -/
def Obligations.TrapDispatches : Prop :=
  (∀ w : Word, field 12 4 w = 15#4 → isServiceVector (field 0 8 w) = false →
    decode w = .trap (field 8 4 w) (field 0 8 w)) ∧
  (∀ (pad : BitVec 4) (s : State),
    exec (.trap pad 0x20) s = exec (.getc pad) s ∧ exec (.trap pad 0x21) s = exec (.out pad) s ∧
      exec (.trap pad 0x22) s = exec (.puts pad) s ∧ exec (.trap pad 0x23) s = exec (.inp pad) s ∧
      exec (.trap pad 0x24) s = exec (.putsp pad) s ∧ exec (.trap pad 0x25) s = exec (.halt pad) s) ∧
  (∀ (pad : BitVec 4) (v : BitVec 8) (s : State), isServiceVector v = false →
    ∃ t, exec (.trap pad v) s = .next t ∧ t.run = .faulted (.invalidTrapVector v) ∧ t.cond = s.cond ∧
      TrapFrame [] s t ∧ HostSame s t) ∧
  (∀ (pad : BitVec 4) (v : BitVec 8) (s t : State), exec (.trap pad v) s = .next t →
    TrapFrame [0#3] s t ∧ (v ≠ 0x20#8 → v ≠ 0x23#8 → t.x 0#3 = s.x 0#3 ∧ t.cond = s.cond) ∧
      (t.run = s.run ∨ (v = 0x25#8 ∧ t.run = .halted) ∨
        (isServiceVector v = false ∧ t.run = .faulted (.invalidTrapVector v)) ∨
        (isServiceVector v = true ∧ t.run = .faulted .hostIOFailure))) ∧
  ∀ (pad : BitVec 4) (v : BitVec 8) (s : State), v ≠ 0x22#8 → v ≠ 0x24#8 → dataAccesses (.trap pad v) s = []

/-- 43_trap_system.md R124: a byte is there, or the stream fails. (Where there is no byte yet: ReadsWaitForInput.) -/
def Obligations.GetcReadsOneByte : Prop :=
  (∀ w : Word, field 12 4 w = 15#4 → field 0 8 w = 0x20#8 → decode w = .getc (field 8 4 w)) ∧
  ∀ (pad : BitVec 4) (s : State),
    (∀ b rest, s.input = .byte b :: rest →
      ∃ t, exec (.getc pad) s = .next t ∧ t.x 0#3 = BitVec.ofNat 16 b.toNat ∧
        t.cond = (if b = 0 then .Z else .P) ∧ TrapFrame [0#3] s t ∧ t.run = s.run ∧ t.input = rest ∧
        t.output = s.output ∧ t.sinkRoom = s.sinkRoom ∧ t.waiting = none) ∧
    (∀ rest, s.input = .failure :: rest →
      ∃ t, exec (.getc pad) s = .next t ∧ t.run = .faulted .hostIOFailure ∧ t.cond = s.cond ∧ TrapFrame [] s t ∧
        t.output = s.output ∧ t.sinkRoom = s.sinkRoom ∧ t.waiting = none)

/-- 43_trap_system.md R125: the low byte and a flush point; or, where the sink takes nothing (log 15), HostIOFailure with
the state that 60_exceptions.md R142 gives by D8 and D15: the failing byte is not appended, the link is written. -/
def Obligations.OutSendsTheLowByte : Prop :=
  (∀ w : Word, field 12 4 w = 15#4 → field 0 8 w = 0x21#8 → decode w = .out (field 8 4 w)) ∧
  ∀ (pad : BitVec 4) (s : State),
    (s.sinkTakes 1 → ∃ t, exec (.out pad) s = .next t ∧
      t.output = s.output ++ [.byte (BitVec.ofNat 8 ((s.x 0#3).toNat % 256)), .flush] ∧ t.sinkRoom = s.roomAfter 1 ∧
      t.cond = s.cond ∧ t.run = s.run ∧ TrapFrame [] s t ∧ t.input = s.input ∧ t.waiting = s.waiting) ∧
    (s.sinkRoom = some 0 → ∃ t, exec (.out pad) s = .next t ∧ t.output = s.output ∧ t.sinkRoom = some 0 ∧
      t.run = .faulted .hostIOFailure ∧ t.cond = s.cond ∧ TrapFrame [] s t ∧ t.input = s.input ∧
      t.waiting = s.waiting)

/-- 43_trap_system.md R126 (PUTS_WIDE is open by D10: a free value, log 6): the words before the first zero word are sent
in order, one byte each up to 0x00FF, then the flush point. Where the sink takes `n` bytes and the string has more (log
15, 27; 60_exceptions.md R142 by D8, D15), those are sent, the reads end with the word of the byte not taken, and
HostIOFailure is raised, with no flush point, whether or not a terminator stands further on. The string may wrap round
the address space. -/
def Obligations.PutsSendsTheString : Prop :=
  (∀ w : Word, field 12 4 w = 15#4 → field 0 8 w = 0x22#8 → decode w = .puts (field 8 4 w)) ∧
  ∀ (pad : BitVec 4) (s : State) (chars : List Word),
    (∀ k (h : k < chars.length), s.memRead (s.x 0#3 + BitVec.ofNat 16 k) = chars[k] ∧ chars[k] ≠ 0) →
    let bytesOf := fun ws : List Word => ws.flatMap fun w =>
      if w.toNat ≤ 0x00FF then [BitVec.ofNat 8 w.toNat] else Config.putsWide w
    let reads := fun n : Nat => (List.range n).map fun k => Access.read (s.x 0#3 + BitVec.ofNat 16 k)
    (s.memRead (s.x 0#3 + BitVec.ofNat 16 chars.length) = 0 → s.sinkTakes (bytesOf chars).length →
      dataAccesses (.puts pad) s = reads (chars.length + 1) ∧
      ∃ t, exec (.puts pad) s = .next t ∧ t.output = s.output ++ asOutput (bytesOf chars) ++ [.flush] ∧
        t.sinkRoom = s.roomAfter (bytesOf chars).length ∧ t.cond = s.cond ∧ t.run = s.run ∧ TrapFrame [] s t ∧
        t.input = s.input ∧ t.waiting = s.waiting) ∧
    (∀ n, s.sinkRoom = some n → n < (bytesOf chars).length →
      (∀ k, (bytesOf (chars.take k)).length ≤ n → n < (bytesOf (chars.take (k + 1))).length →
        dataAccesses (.puts pad) s = reads (k + 1)) ∧
      ∃ t, exec (.puts pad) s = .next t ∧ t.run = .faulted .hostIOFailure ∧
        t.output = s.output ++ asOutput ((bytesOf chars).take n) ∧ t.sinkRoom = some 0 ∧ t.cond = s.cond ∧
        TrapFrame [] s t ∧ t.input = s.input ∧ t.waiting = s.waiting)

/-- 43_trap_system.md R127 (D11, D13; log 4, 20; a failing sink, log 15): prompt, flush point, read, echo, x[0], flags; and the ways it
fails. (Where there is no byte yet: ReadsWaitForInput.) The prompt text is the parameter IN_PROMPT, whatever it is. -/
def Obligations.InPromptsReadsEchoes : Prop :=
  (∀ w : Word, field 12 4 w = 15#4 → field 0 8 w = 0x23#8 → decode w = .inp (field 8 4 w)) ∧
  ∀ (pad : BitVec 4) (s : State),
    let prompted := s.output ++ asOutput s.cfg.inPrompt ++ [.flush]
    (∀ b rest, s.input = .byte b :: rest → s.sinkTakes (s.cfg.inPrompt.length + 1) →
      ∃ t, exec (.inp pad) s = .next t ∧ t.x 0#3 = BitVec.ofNat 16 b.toNat ∧ t.cond = (if b = 0 then .Z else .P) ∧
        TrapFrame [0#3] s t ∧ t.run = s.run ∧ t.input = rest ∧ t.output = prompted ++ [.byte b] ∧
        t.sinkRoom = s.roomAfter (s.cfg.inPrompt.length + 1) ∧ t.waiting = none) ∧
    (∀ b rest, s.input = .byte b :: rest → s.sinkRoom = some s.cfg.inPrompt.length →
      ∃ t, exec (.inp pad) s = .next t ∧ t.run = .faulted .hostIOFailure ∧ t.cond = s.cond ∧ TrapFrame [] s t ∧
        t.input = rest ∧ t.output = prompted ∧ t.sinkRoom = some 0 ∧ t.waiting = none) ∧
    (∀ rest, s.input = .failure :: rest → s.sinkTakes s.cfg.inPrompt.length →
      ∃ t, exec (.inp pad) s = .next t ∧ t.run = .faulted .hostIOFailure ∧ t.cond = s.cond ∧ TrapFrame [] s t ∧
        t.output = prompted ∧ t.sinkRoom = s.roomAfter s.cfg.inPrompt.length ∧ t.waiting = none) ∧
    (∀ n, s.sinkRoom = some n → n < s.cfg.inPrompt.length →
      ∃ t, exec (.inp pad) s = .next t ∧ t.run = .faulted .hostIOFailure ∧ t.cond = s.cond ∧ TrapFrame [] s t ∧
        t.input = s.input ∧ t.output = s.output ++ asOutput (s.cfg.inPrompt.take n) ∧ t.sinkRoom = some 0 ∧
        t.waiting = s.waiting)

/-- 43_trap_system.md R128 (the first zero byte ends it by D14, log 10): the bytes low, high, low, high … before the first
zero byte are sent, then the flush point. `bytes` is the string; its zero byte is the low or the high byte of the word
at offset `bytes.length / 2`. Where the sink takes `n` bytes and the string has more (log 15, 27; 60_exceptions.md R142
by D8, D15), those are sent, the reads end with the word of the byte not taken, and HostIOFailure is raised, with no
flush point, whether or not a zero byte stands further on. -/
def Obligations.PutspSendsTheString : Prop :=
  (∀ w : Word, field 12 4 w = 15#4 → field 0 8 w = 0x24#8 → decode w = .putsp (field 8 4 w)) ∧
  ∀ (pad : BitVec 4) (s : State) (bytes : List Byte),
    let byteAt := fun k : Nat =>
      let w := s.memRead (s.x 0#3 + BitVec.ofNat 16 (k / 2))
      BitVec.ofNat 8 (if k % 2 = 0 then w.toNat % 256 else w.toNat / 256)
    let reads := fun n : Nat => (List.range n).map fun k => Access.read (s.x 0#3 + BitVec.ofNat 16 k)
    (∀ k (h : k < bytes.length), byteAt k = bytes[k] ∧ bytes[k] ≠ 0) →
    (byteAt bytes.length = 0 → s.sinkTakes bytes.length →
      dataAccesses (.putsp pad) s = reads (bytes.length / 2 + 1) ∧
      ∃ t, exec (.putsp pad) s = .next t ∧ t.output = s.output ++ asOutput bytes ++ [.flush] ∧
        t.sinkRoom = s.roomAfter bytes.length ∧ t.cond = s.cond ∧ t.run = s.run ∧ TrapFrame [] s t ∧
        t.input = s.input ∧ t.waiting = s.waiting) ∧
    (∀ n, s.sinkRoom = some n → n < bytes.length →
      dataAccesses (.putsp pad) s = reads (n / 2 + 1) ∧
      ∃ t, exec (.putsp pad) s = .next t ∧ t.run = .faulted .hostIOFailure ∧
        t.output = s.output ++ asOutput (bytes.take n) ∧ t.sinkRoom = some 0 ∧ t.cond = s.cond ∧ TrapFrame [] s t ∧
        t.input = s.input ∧ t.waiting = s.waiting)

/-- 43_trap_system.md R129 (the text is the parameter HALT_NOTICE by D12, log 5; the flush, log 16; a failing sink, log 15). -/
def Obligations.HaltNotifiesAndStops : Prop :=
  (∀ w : Word, field 12 4 w = 15#4 → field 0 8 w = 0x25#8 → decode w = .halt (field 8 4 w)) ∧
  ∀ (pad : BitVec 4) (s : State),
    (s.sinkTakes s.cfg.haltNotice.length →
      ∃ t, exec (.halt pad) s = .next t ∧ t.run = .halted ∧
        t.output = s.output ++ asOutput s.cfg.haltNotice ++ [.flush] ∧ t.cond = s.cond ∧ TrapFrame [] s t ∧
        t.input = s.input ∧ t.sinkRoom = s.roomAfter s.cfg.haltNotice.length ∧ t.waiting = s.waiting) ∧
    (∀ n, s.sinkRoom = some n → n < s.cfg.haltNotice.length →
      ∃ t, exec (.halt pad) s = .next t ∧ t.run = .faulted .hostIOFailure ∧ t.cond = s.cond ∧ TrapFrame [] s t ∧
        t.input = s.input ∧ t.output = s.output ++ asOutput (s.cfg.haltNotice.take n) ∧ t.sinkRoom = some 0 ∧
        t.waiting = s.waiting)

/-- 43_trap_system.md R131: RTI raises UnsupportedInstruction with the instruction word; nothing else changes. -/
def Obligations.RtiRaises : Prop :=
  ∀ w : Word, field 12 4 w = 8#4 → decode w = .rti (field 0 12 w) ∧
    ∀ s : State, dataAccesses (decode w) s = [] ∧
      ∃ t, exec (.rti (field 0 12 w)) s = .next t ∧ t.run = .faulted (.unsupportedInstruction w) ∧ t.pc = s.pc ∧
        RegsSameBut [] s t ∧ t.cond = s.cond ∧ MemorySame s t ∧ HostSame s t

/-- 43_trap_system.md R132: the reserved opcode raises InvalidOpcode with the instruction word; nothing else changes. -/
def Obligations.ReservedOpcodeRaises : Prop :=
  ∀ w : Word, field 12 4 w = 13#4 → decode w = .res (field 0 12 w) ∧
    ∀ s : State, dataAccesses (decode w) s = [] ∧
      ∃ t, exec (.res (field 0 12 w)) s = .next t ∧ t.run = .faulted (.invalidOpcode w) ∧ t.pc = s.pc ∧
        RegsSameBut [] s t ∧ t.cond = s.cond ∧ MemorySame s t ∧ HostSame s t

/-- 60_exceptions.md R142 (its decision D8, log 11): what every fatal stop leaves, for a step that fetched at `s.pc`. -/
def Obligations.StateLeftByFatalStops : Prop :=
  ∀ (s t : State) (c : FatalCause), s.run = .running → s.waiting = none → step s = .next t → t.run = .faulted c →
    t.pc = s.pc + 1 ∧ t.cond = s.cond ∧ MemorySame s t ∧ s.output <+: t.output ∧
      match c with
      | .invalidOpcode w => w = s.fetch ∧ RegsSameBut [] s t ∧ t.output = s.output
      | .unsupportedInstruction w => w = s.fetch ∧ RegsSameBut [] s t ∧ t.output = s.output
      | .invalidTrapVector v => v = field 0 8 s.fetch ∧ t.x 7#3 = s.pc + 1 ∧ RegsSameBut [7#3] s t ∧ t.output = s.output
      | .hostIOFailure => t.x 7#3 = s.pc + 1 ∧ RegsSameBut [7#3] s t

/-- 43_trap_system.md R122 (its decision D26; log 17): with a sink that never fails, PUTS and PUTSP have no next state
exactly where memory holds no terminator. -/
def Obligations.StringServicesEndAtATerminator : Prop :=
  ∀ (pad : BitVec 4) (s : State), s.sinkRoom = none →
    (exec (.puts pad) s = .fault .serviceNeverEnds ↔ ∀ a, s.memRead a ≠ 0) ∧
    ((∃ t, exec (.puts pad) s = .next t) ↔ ∃ a, s.memRead a = 0) ∧
    (exec (.putsp pad) s = .fault .serviceNeverEnds ↔
      ∀ a, (s.memRead a).toNat % 256 ≠ 0 ∧ (s.memRead a).toNat / 256 ≠ 0) ∧
    ((∃ t, exec (.putsp pad) s = .next t) ↔
      ∃ a, (s.memRead a).toNat % 256 = 0 ∨ (s.memRead a).toNat / 256 = 0)

/-! ### Waiting for input -/

/-- 10_state.md R25(b) (D15; log 13, 14): where no byte is there yet GETC waits after the link and IN after its prompt,
`x[0]` and the flags not written; a waiting block whose input stays silent does not move. -/
def Obligations.ReadsWaitForInput : Prop :=
  (∀ (pad : BitVec 4) (s : State) (rest : List HostInput),
    s.input = .notYet :: rest ∨ (s.input = [] ∧ rest = []) →
      (∃ t, exec (.getc pad) s = .next t ∧ t.run = s.run ∧ t.cond = s.cond ∧ TrapFrame [] s t ∧ t.input = rest ∧
        t.output = s.output ∧ t.sinkRoom = s.sinkRoom ∧ t.waiting = some .getc) ∧
      (s.sinkTakes s.cfg.inPrompt.length →
        ∃ t, exec (.inp pad) s = .next t ∧ t.run = s.run ∧ t.cond = s.cond ∧ TrapFrame [] s t ∧ t.input = rest ∧
          t.output = s.output ++ asOutput s.cfg.inPrompt ++ [.flush] ∧
          t.sinkRoom = s.roomAfter s.cfg.inPrompt.length ∧ t.waiting = some .inp)) ∧
  ∀ (s : State) (p : WaitPoint), s.run = .running → s.waiting = some p → s.input = [] → step s = .next s

/-- 10_state.md R25 (D15; log 13, 14), R146 (derived there): the host supplies a byte, or closes the stream, and the
waiting service ends; the link, the prompt and the advance are not done again. GETC sends nothing; IN sends its echo, or
stops where the sink does not take it (log 15; 60_exceptions.md R142 by D8), the byte consumed and `x[0]` not written. -/
def Obligations.SuppliedByteEndsTheWait : Prop :=
  ∀ (s : State) (p : WaitPoint) (b : Byte), s.run = .running → s.waiting = some p → s.input = [] →
    ((p = .inp → s.sinkTakes 1) → ∃ t, step (s.supply (.byte b)) = .next t ∧ t.x 0#3 = BitVec.ofNat 16 b.toNat ∧
      t.cond = (if b = 0 then .Z else .P) ∧ RegsSameBut [0#3] s t ∧ t.pc = s.pc ∧ t.run = .running ∧ MemorySame s t ∧
      t.input = [] ∧ t.waiting = none ∧ t.output = s.output ++ asOutput (if p = .inp then [b] else []) ∧
      t.sinkRoom = (if p = .inp then s.roomAfter 1 else s.sinkRoom)) ∧
    (p = .inp → s.sinkRoom = some 0 → ∃ t, step (s.supply (.byte b)) = .next t ∧ t.run = .faulted .hostIOFailure ∧
      RegsSameBut [] s t ∧ t.cond = s.cond ∧ t.pc = s.pc ∧ MemorySame s t ∧ t.input = [] ∧ t.waiting = none ∧
      t.output = s.output ∧ t.sinkRoom = some 0) ∧
    (∃ t, step (s.supply .failure) = .next t ∧ t.run = .faulted .hostIOFailure ∧ RegsSameBut [] s t ∧
      t.cond = s.cond ∧ t.pc = s.pc ∧ MemorySame s t ∧ t.output = s.output ∧ t.sinkRoom = s.sinkRoom ∧
      t.waiting = none)

/-- A service that waits and then gets its byte ends as one that found the byte at once (10_state.md R20, R25, D15; log
14): `k` waits before the byte cost `k` steps and change nothing else. -/
def Obligations.WaitingChangesNothing : Prop :=
  ∀ (s : State) (k : Nat) (b : Byte) (rest : List HostInput) (pad : BitVec 4),
    s.run = .running → s.waiting = none → s.input = List.replicate k .notYet ++ .byte b :: rest →
    (decode s.fetch = .getc pad ∨ (decode s.fetch = .inp pad ∧ s.sinkTakes s.cfg.inPrompt.length)) →
      core.run (k + 1) s = core.run 1 (s.setInput (.byte b :: rest))

/-! ### Rules about the whole machine -/

/-- The reset state has the invariant. -/
def Obligations.ResetHasInvariant : Prop :=
  ∀ (cfg : Config) (memInit : Memory) (input : List HostInput) (room : Option Nat), memInit.wf = true →
    (State.resetWith cfg memInit input room).Inv ∧ State.reset.Inv

/-- Every step keeps the invariant: memory in canonical form; a waiting service is inside the step of a running block,
with its link written and, for IN, its prompt sent. The parameters never change. -/
def Obligations.StepKeepsInvariant : Prop :=
  ∀ s t : State, s.Inv → step s = .next t → t.Inv ∧ t.cfg = s.cfg

/-- Every step has a next state, but a PUTS or PUTSP over a memory without a terminator (60_exceptions.md R140: no other
condition stops the machine; 43_trap_system.md R122 by D26), which is the fault serviceNeverEnds (log 17); nothing is
refused. -/
def Obligations.OnlyEndlessStringsHaveNoNextState : Prop :=
  ∀ s : State, (∃ t, step s = .next t) ∨
    (step s = .fault .serviceNeverEnds ∧ s.run = .running ∧ s.waiting = none ∧ field 12 4 s.fetch = 15#4 ∧
      ((field 0 8 s.fetch = 0x22#8 ∧ ∀ a, s.memRead a ≠ 0) ∨
        (field 0 8 s.fetch = 0x24#8 ∧ ∀ a, (s.memRead a).toNat % 256 ≠ 0 ∧ (s.memRead a).toNat / 256 ≠ 0)))

/-- 30_encoding.md R61's three classes (R61 and 10_state.md R19; D8): a step stops for a cause other than HostIOFailure
exactly on a word of the three, and reaches HALTED only from a TRAP with vector 0x25. -/
def Obligations.WordsThatStopTheMachine : Prop :=
  ∀ s t : State, s.run = .running → s.waiting = none → step s = .next t →
    ((∃ c, t.run = .faulted c ∧ c ≠ .hostIOFailure) ↔
      (field 12 4 s.fetch = 13#4 ∨ field 12 4 s.fetch = 8#4 ∨
        (field 12 4 s.fetch = 15#4 ∧ ¬(0x20 ≤ (field 0 8 s.fetch).toNat ∧ (field 0 8 s.fetch).toNat ≤ 0x25)))) ∧
    (t.run = .halted → field 12 4 s.fetch = 15#4 ∧ field 0 8 s.fetch = 0x25#8)

/-- 10_state.md R17, writers and readers of the flags: an instruction that changes the flags is one of the listed and the
flags then tell of its register; an instruction but BR does not read them. That a GETC or IN which waits (log 14), or
whose stream fails (60_exceptions.md R146 by D15; log 15), has not written them yet is the model's reading. -/
def Obligations.FlagsAreWrittenAndReadOnlyWhereListed : Prop :=
  (∀ (i : Instr) (s t : State), exec i s = .next t → t.cond ≠ s.cond →
    ∃ r, i.flagRegister = some r ∧ FlagsFor (t.x r) t.cond) ∧
  (∀ (i : Instr) (r : RegSel) (s t : State), exec i s = .next t → i.flagRegister = some r →
    FlagsFor (t.x r) t.cond ∨ (t.waiting ≠ none ∨ t.run = .faulted .hostIOFailure) ∧ t.cond = s.cond) ∧
  ∀ (i : Instr) (s : State) (c : Cond), i.readsCond = false →
    match exec i s with
    | .next t => ∃ u, exec i (s.setCond c) = .next u ∧ u.setCond .Z = t.setCond .Z
    | .fault f => exec i (s.setCond c) = .fault f
    | .refused r => exec i (s.setCond c) = .refused r

/-- 10_state.md R12 (derived there): a step writes no general register but the fetched instruction's destination, x[7]
for JSR, JSRR and TRAP, and x[0] for GETC and IN; a waiting service writes x[0] alone. -/
def Obligations.RegistersAreWrittenOnlyWhereNamed : Prop :=
  ∀ (s t : State) (r : RegSel), step s = .next t → t.x r ≠ s.x r →
    s.run = .running ∧ ((s.waiting = none ∧ r ∈ (decode s.fetch).mayWrite) ∨ (s.waiting ≠ none ∧ r = 0#3))

/-- 42_load_store.md R108, 20_memory.md R42 (derived or stated there): a step changes memory only when it fetches a ST, STI
or STR, and then only the word at the address the row computes. -/
def Obligations.MemoryIsWrittenOnlyByStores : Prop :=
  ∀ (s t : State) (a : Word), s.mem.wf = true → step s = .next t → t.memRead a ≠ s.memRead a →
    s.run = .running ∧ s.waiting = none ∧ (decode s.fetch).storeAddress s.advance = some a

/-- 20_memory.md R38 (derived there; log 27 for a failing sink): the listed accesses are all the use an instruction makes
of memory. On another memory that agrees at the addresses read it does the same, and its writes are those listed. -/
def Obligations.ListedAccessesAreAllMemoryUse : Prop :=
  ∀ (i : Instr) (s : State) (m : Memory), (∀ a, Access.read a ∈ dataAccesses i s → m.read a = s.memRead a) →
    match exec i s with
    | .next t => exec i (s.setMem m) = .next (t.setMem (applyWrites (dataAccesses i s) m))
    | .fault f => exec i (s.setMem m) = .fault f
    | .refused r => exec i (s.setMem m) = .refused r

/-- 10_state.md R24: the output only grows; the input is consumed from the front; a step of a block that does not run
touches neither; the parameters stay. -/
def Obligations.StreamsMoveOneWay : Prop :=
  ∀ s t : State, step s = .next t →
    s.output <+: t.output ∧ t.input <:+ s.input ∧ t.cfg = s.cfg ∧ (s.run ≠ .running → t = s)
end

