-- ==== Sys2Proof/Laws/Codec.lean ====
section
/-! SUPPORT. The bits of fields: what `field`, `withField`, `place` and `fieldMask` are, bit by bit
(spec/30_encoding.md R58). -/

namespace Sys2Proof

/-- Equality of words, bit by bit. -/
theorem word_ext {v w : Word} (h : ∀ k < 16, v.getLsbD k = w.getLsbD k) : v = w := BitVec.eq_of_getLsbD_eq h

theorem getLsbD_field (lo n : Nat) (w : Word) (k : Nat) :
    (field lo n w).getLsbD k = (decide (k < n) && w.getLsbD (lo + k)) := by
  simp [field]

theorem getLsbD_place {n : Nat} (lo : Nat) (v : BitVec n) (k : Nat) :
    (place lo v).getLsbD k = (decide (k < 16) && decide (lo ≤ k) && v.getLsbD (k - lo)) := by
  simp only [place, BitVec.getLsbD_shiftLeft, BitVec.getLsbD_setWidth]
  rw [Bool.eq_iff_iff]; simp; omega

theorem getLsbD_fieldMask (lo n k : Nat) :
    (fieldMask lo n).getLsbD k = (decide (k < 16) && decide (lo ≤ k) && decide (k < lo + n)) := by
  simp only [fieldMask, BitVec.getLsbD_shiftLeft, BitVec.getLsbD_setWidth, BitVec.getLsbD_allOnes]
  rw [Bool.eq_iff_iff]; simp; omega

/-- A field in its place has no bit outside its mask. -/
theorem place_and_mask {n : Nat} (lo : Nat) (v : BitVec n) : place lo v &&& fieldMask lo n = place lo v := by
  apply word_ext; intro k hk
  rw [BitVec.getLsbD_and, getLsbD_place, getLsbD_fieldMask]
  by_cases g : k < lo + n
  · simp [g]; tauto
  · simp [g, BitVec.getLsbD_of_ge v (k - lo) (by omega)]

/-- A field in its place is invisible under a mask that misses its bits. -/
theorem place_and_eq_zero {n : Nat} {lo : Nat} (v : BitVec n) {m : Word} (h : fieldMask lo n &&& m = 0) :
    place lo v &&& m = 0 := by
  rw [← place_and_mask, BitVec.and_assoc, h]; exact BitVec.and_zero

/-- A word built from a row's fixed bits and free bits is selected by the row. -/
theorem selects_of_bits {p o m : Word} (hp : p &&& m = p) (ho : o &&& m = 0) : (p ||| o) &&& m = p := by
  rw [BitVec.and_or_distrib_right, hp, ho]; exact BitVec.or_zero

/-- Free bits joined are free. -/
theorem or_and_eq_zero {a b m : Word} (ha : a &&& m = 0) (hb : b &&& m = 0) : (a ||| b) &&& m = 0 := by
  rw [BitVec.and_or_distrib_right, ha, hb]; exact BitVec.or_zero

end Sys2Proof
end

