-- ==== Sys2Proof/Laws/Memory.lean ====
section
/-! SUPPORT. Memory: a read after a write (spec/20_memory.md R32, R33), and the canonical form, which every operation
keeps. -/

namespace Sys2Proof.Machine

theorem Memory.wfFrom_cons {lo k : Nat} {v : Word} {m : Memory} :
    Memory.wfFrom lo ((k, v) :: m) = true ↔
      lo ≤ k ∧ k < 65536 ∧ v ≠ Memory.unlisted ∧ Memory.wfFrom (k + 1) m = true := by
  simp [Memory.wfFrom, and_assoc]

/-- A smaller lower bound is a weaker claim. -/
theorem Memory.wfFrom_mono {lo lo' : Nat} (h : lo' ≤ lo) {m : Memory} (hm : Memory.wfFrom lo m = true) :
    Memory.wfFrom lo' m = true := by
  cases m with
  | nil => rfl
  | cons c m =>
    obtain ⟨h1, h2⟩ := Memory.wfFrom_cons.mp hm
    exact Memory.wfFrom_cons.mpr ⟨h.trans h1, h2⟩

/-- Below the lower bound nothing is listed. -/
theorem Memory.lookup_below {m : Memory} :
    ∀ {lo k : Nat}, Memory.wfFrom lo m = true → k < lo → Memory.lookup k m = Memory.unlisted := by
  induction m with
  | nil => intros; rfl
  | cons c m ih =>
    intro lo k hm hk
    obtain ⟨h1, -, -, h4⟩ := Memory.wfFrom_cons.mp hm
    rw [Memory.lookup, if_neg (by omega)]
    exact ih h4 (by omega)

/-- A lookup after an insertion. -/
theorem Memory.lookup_insert {k : Nat} {v : Word} {m : Memory} :
    ∀ {lo : Nat}, Memory.wfFrom lo m = true →
      ∀ j, Memory.lookup j (Memory.insert k v m) = if j = k then v else Memory.lookup j m := by
  induction m with
  | nil =>
    intro lo _ j
    unfold Memory.insert
    by_cases hj : j = k
    · subst hj; split <;> simp_all [Memory.lookup]
    · split <;> simp [Memory.lookup, Ne.symm hj]
  | cons c m ih =>
    obtain ⟨i, u⟩ := c
    intro lo hm j
    obtain ⟨-, -, -, h4⟩ := Memory.wfFrom_cons.mp hm
    have below : ∀ n, n ≤ i → Memory.lookup n m = Memory.unlisted := fun n hn =>
      Memory.lookup_below h4 (by omega)
    unfold Memory.insert
    split
    · have hk : Memory.lookup k ((i, u) :: m) = Memory.unlisted := by
        rw [Memory.lookup, if_neg (by omega)]; exact below k (by omega)
      split
      · split <;> simp_all
      · simp only [Memory.lookup, eq_comm (a := k)]
    · split
      · subst i
        split
        · by_cases hj : j = k
          · simp_all
          · simp [hj, Memory.lookup, Ne.symm hj]
        · simp only [Memory.lookup, eq_comm (a := k)]
          by_cases hj : j = k <;> simp [hj]
      · rw [Memory.lookup, ih h4 j]
        by_cases hj : i = j
        · subst hj; simp [Memory.lookup, show i ≠ k by omega]
        · simp [Memory.lookup, hj]

/-- Insertion keeps the canonical form. -/
theorem Memory.wfFrom_insert {k : Nat} {v : Word} (hk : k < 65536) {m : Memory} :
    ∀ {lo : Nat}, Memory.wfFrom lo m = true → lo ≤ k → Memory.wfFrom lo (Memory.insert k v m) = true := by
  induction m with
  | nil =>
    intro lo _ hlo
    unfold Memory.insert
    split
    · rfl
    · exact Memory.wfFrom_cons.mpr ⟨hlo, hk, ‹_›, rfl⟩
  | cons c m ih =>
    obtain ⟨i, u⟩ := c
    intro lo hm hlo
    obtain ⟨h1, h2, h3, h4⟩ := Memory.wfFrom_cons.mp hm
    unfold Memory.insert
    split
    · split
      · exact hm
      · exact Memory.wfFrom_cons.mpr ⟨hlo, hk, ‹_›, Memory.wfFrom_cons.mpr ⟨by omega, h2, h3, h4⟩⟩
    · split
      · subst i
        split
        · exact Memory.wfFrom_mono (by omega) h4
        · exact Memory.wfFrom_cons.mpr ⟨hlo, hk, ‹_›, h4⟩
      · exact Memory.wfFrom_cons.mpr ⟨h1, h2, h3, ih h4 (by omega)⟩

/-- A read after a write: the word written, and every other word as it was (R32, R33). -/
theorem Memory.read_write {m : Memory} (hm : m.wf = true) (a v b : Word) :
    (m.write a v).read b = if b = a then v else m.read b := by
  rw [Memory.read, Memory.write, Memory.lookup_insert hm, Memory.read]
  simp [BitVec.toNat_inj]

theorem Memory.read_write_same {m : Memory} (hm : m.wf = true) (a v : Word) : (m.write a v).read a = v := by
  simp [Memory.read_write hm]

theorem Memory.read_write_ne {m : Memory} (hm : m.wf = true) {a b : Word} (v : Word) (h : b ≠ a) :
    (m.write a v).read b = m.read b := by
  simp [Memory.read_write hm, h]

/-- A write keeps the canonical form. -/
theorem Memory.wf_write {m : Memory} (hm : m.wf = true) (a v : Word) : (m.write a v).wf = true :=
  Memory.wfFrom_insert a.isLt hm (Nat.zero_le _)

/-- The empty memory has the canonical form: the memory of the reset state. -/
theorem Memory.wf_nil : Memory.wf [] = true := rfl

@[simp] theorem Memory.read_nil (a : Word) : Memory.read [] a = Memory.unlisted := rfl

end Sys2Proof.Machine
end

