-- ==== Sys2Proof/Laws/State.lean ====
section
/-! SUPPORT. One lemma per field per update of State, each true by rfl, so that no proof unfolds a record update.
Registers are also read through `x` and memory through `memRead`. -/

namespace Sys2Proof.Machine

variable (s : State)

/-! ### writeReg -/

@[simp] theorem State.writeReg_regs (i : RegSel) (v : Word) : (s.writeReg i v).regs = s.regs.set i.toNat v i.isLt := rfl
@[simp] theorem State.writeReg_pc (i : RegSel) (v : Word) : (s.writeReg i v).pc = s.pc := rfl
@[simp] theorem State.writeReg_cond (i : RegSel) (v : Word) : (s.writeReg i v).cond = s.cond := rfl
@[simp] theorem State.writeReg_run (i : RegSel) (v : Word) : (s.writeReg i v).run = s.run := rfl
@[simp] theorem State.writeReg_mem (i : RegSel) (v : Word) : (s.writeReg i v).mem = s.mem := rfl
@[simp] theorem State.writeReg_input (i : RegSel) (v : Word) : (s.writeReg i v).input = s.input := rfl
@[simp] theorem State.writeReg_output (i : RegSel) (v : Word) : (s.writeReg i v).output = s.output := rfl
@[simp] theorem State.writeReg_sinkRoom (i : RegSel) (v : Word) : (s.writeReg i v).sinkRoom = s.sinkRoom := rfl
@[simp] theorem State.writeReg_waiting (i : RegSel) (v : Word) : (s.writeReg i v).waiting = s.waiting := rfl
@[simp] theorem State.writeReg_cfg (i : RegSel) (v : Word) : (s.writeReg i v).cfg = s.cfg := rfl
@[simp] theorem State.writeReg_memRead (i : RegSel) (v : Word) (b : Word) : (s.writeReg i v).memRead b = s.memRead b := rfl

/-! ### setPc -/

@[simp] theorem State.setPc_regs (a : Word) : (s.setPc a).regs = s.regs := rfl
@[simp] theorem State.setPc_pc (a : Word) : (s.setPc a).pc = a := rfl
@[simp] theorem State.setPc_cond (a : Word) : (s.setPc a).cond = s.cond := rfl
@[simp] theorem State.setPc_run (a : Word) : (s.setPc a).run = s.run := rfl
@[simp] theorem State.setPc_mem (a : Word) : (s.setPc a).mem = s.mem := rfl
@[simp] theorem State.setPc_input (a : Word) : (s.setPc a).input = s.input := rfl
@[simp] theorem State.setPc_output (a : Word) : (s.setPc a).output = s.output := rfl
@[simp] theorem State.setPc_sinkRoom (a : Word) : (s.setPc a).sinkRoom = s.sinkRoom := rfl
@[simp] theorem State.setPc_waiting (a : Word) : (s.setPc a).waiting = s.waiting := rfl
@[simp] theorem State.setPc_cfg (a : Word) : (s.setPc a).cfg = s.cfg := rfl
@[simp] theorem State.setPc_x (a : Word) (j : RegSel) : (s.setPc a).x j = s.x j := rfl
@[simp] theorem State.setPc_memRead (a : Word) (b : Word) : (s.setPc a).memRead b = s.memRead b := rfl

/-! ### setCond -/

@[simp] theorem State.setCond_regs (c : Cond) : (s.setCond c).regs = s.regs := rfl
@[simp] theorem State.setCond_pc (c : Cond) : (s.setCond c).pc = s.pc := rfl
@[simp] theorem State.setCond_cond (c : Cond) : (s.setCond c).cond = c := rfl
@[simp] theorem State.setCond_run (c : Cond) : (s.setCond c).run = s.run := rfl
@[simp] theorem State.setCond_mem (c : Cond) : (s.setCond c).mem = s.mem := rfl
@[simp] theorem State.setCond_input (c : Cond) : (s.setCond c).input = s.input := rfl
@[simp] theorem State.setCond_output (c : Cond) : (s.setCond c).output = s.output := rfl
@[simp] theorem State.setCond_sinkRoom (c : Cond) : (s.setCond c).sinkRoom = s.sinkRoom := rfl
@[simp] theorem State.setCond_waiting (c : Cond) : (s.setCond c).waiting = s.waiting := rfl
@[simp] theorem State.setCond_cfg (c : Cond) : (s.setCond c).cfg = s.cfg := rfl
@[simp] theorem State.setCond_x (c : Cond) (j : RegSel) : (s.setCond c).x j = s.x j := rfl
@[simp] theorem State.setCond_memRead (c : Cond) (b : Word) : (s.setCond c).memRead b = s.memRead b := rfl

/-! ### setRun -/

@[simp] theorem State.setRun_regs (r : RunState) : (s.setRun r).regs = s.regs := rfl
@[simp] theorem State.setRun_pc (r : RunState) : (s.setRun r).pc = s.pc := rfl
@[simp] theorem State.setRun_cond (r : RunState) : (s.setRun r).cond = s.cond := rfl
@[simp] theorem State.setRun_run (r : RunState) : (s.setRun r).run = r := rfl
@[simp] theorem State.setRun_mem (r : RunState) : (s.setRun r).mem = s.mem := rfl
@[simp] theorem State.setRun_input (r : RunState) : (s.setRun r).input = s.input := rfl
@[simp] theorem State.setRun_output (r : RunState) : (s.setRun r).output = s.output := rfl
@[simp] theorem State.setRun_sinkRoom (r : RunState) : (s.setRun r).sinkRoom = s.sinkRoom := rfl
@[simp] theorem State.setRun_waiting (r : RunState) : (s.setRun r).waiting = s.waiting := rfl
@[simp] theorem State.setRun_cfg (r : RunState) : (s.setRun r).cfg = s.cfg := rfl
@[simp] theorem State.setRun_x (r : RunState) (j : RegSel) : (s.setRun r).x j = s.x j := rfl
@[simp] theorem State.setRun_memRead (r : RunState) (b : Word) : (s.setRun r).memRead b = s.memRead b := rfl

/-! ### setMem -/

@[simp] theorem State.setMem_regs (m : Memory) : (s.setMem m).regs = s.regs := rfl
@[simp] theorem State.setMem_pc (m : Memory) : (s.setMem m).pc = s.pc := rfl
@[simp] theorem State.setMem_cond (m : Memory) : (s.setMem m).cond = s.cond := rfl
@[simp] theorem State.setMem_run (m : Memory) : (s.setMem m).run = s.run := rfl
@[simp] theorem State.setMem_mem (m : Memory) : (s.setMem m).mem = m := rfl
@[simp] theorem State.setMem_input (m : Memory) : (s.setMem m).input = s.input := rfl
@[simp] theorem State.setMem_output (m : Memory) : (s.setMem m).output = s.output := rfl
@[simp] theorem State.setMem_sinkRoom (m : Memory) : (s.setMem m).sinkRoom = s.sinkRoom := rfl
@[simp] theorem State.setMem_waiting (m : Memory) : (s.setMem m).waiting = s.waiting := rfl
@[simp] theorem State.setMem_cfg (m : Memory) : (s.setMem m).cfg = s.cfg := rfl
@[simp] theorem State.setMem_x (m : Memory) (j : RegSel) : (s.setMem m).x j = s.x j := rfl

/-! ### setInput -/

@[simp] theorem State.setInput_regs (l : List HostInput) : (s.setInput l).regs = s.regs := rfl
@[simp] theorem State.setInput_pc (l : List HostInput) : (s.setInput l).pc = s.pc := rfl
@[simp] theorem State.setInput_cond (l : List HostInput) : (s.setInput l).cond = s.cond := rfl
@[simp] theorem State.setInput_run (l : List HostInput) : (s.setInput l).run = s.run := rfl
@[simp] theorem State.setInput_mem (l : List HostInput) : (s.setInput l).mem = s.mem := rfl
@[simp] theorem State.setInput_input (l : List HostInput) : (s.setInput l).input = l := rfl
@[simp] theorem State.setInput_output (l : List HostInput) : (s.setInput l).output = s.output := rfl
@[simp] theorem State.setInput_sinkRoom (l : List HostInput) : (s.setInput l).sinkRoom = s.sinkRoom := rfl
@[simp] theorem State.setInput_waiting (l : List HostInput) : (s.setInput l).waiting = s.waiting := rfl
@[simp] theorem State.setInput_cfg (l : List HostInput) : (s.setInput l).cfg = s.cfg := rfl
@[simp] theorem State.setInput_x (l : List HostInput) (j : RegSel) : (s.setInput l).x j = s.x j := rfl
@[simp] theorem State.setInput_memRead (l : List HostInput) (b : Word) : (s.setInput l).memRead b = s.memRead b := rfl

/-! ### setWaiting -/

@[simp] theorem State.setWaiting_regs (w : Option WaitPoint) : (s.setWaiting w).regs = s.regs := rfl
@[simp] theorem State.setWaiting_pc (w : Option WaitPoint) : (s.setWaiting w).pc = s.pc := rfl
@[simp] theorem State.setWaiting_cond (w : Option WaitPoint) : (s.setWaiting w).cond = s.cond := rfl
@[simp] theorem State.setWaiting_run (w : Option WaitPoint) : (s.setWaiting w).run = s.run := rfl
@[simp] theorem State.setWaiting_mem (w : Option WaitPoint) : (s.setWaiting w).mem = s.mem := rfl
@[simp] theorem State.setWaiting_input (w : Option WaitPoint) : (s.setWaiting w).input = s.input := rfl
@[simp] theorem State.setWaiting_output (w : Option WaitPoint) : (s.setWaiting w).output = s.output := rfl
@[simp] theorem State.setWaiting_sinkRoom (w : Option WaitPoint) : (s.setWaiting w).sinkRoom = s.sinkRoom := rfl
@[simp] theorem State.setWaiting_waiting (w : Option WaitPoint) : (s.setWaiting w).waiting = w := rfl
@[simp] theorem State.setWaiting_cfg (w : Option WaitPoint) : (s.setWaiting w).cfg = s.cfg := rfl
@[simp] theorem State.setWaiting_x (w : Option WaitPoint) (j : RegSel) : (s.setWaiting w).x j = s.x j := rfl
@[simp] theorem State.setWaiting_memRead (w : Option WaitPoint) (b : Word) : (s.setWaiting w).memRead b = s.memRead b := rfl

/-! ### setSinkRoom -/

@[simp] theorem State.setSinkRoom_regs (r : Option Nat) : (s.setSinkRoom r).regs = s.regs := rfl
@[simp] theorem State.setSinkRoom_pc (r : Option Nat) : (s.setSinkRoom r).pc = s.pc := rfl
@[simp] theorem State.setSinkRoom_cond (r : Option Nat) : (s.setSinkRoom r).cond = s.cond := rfl
@[simp] theorem State.setSinkRoom_run (r : Option Nat) : (s.setSinkRoom r).run = s.run := rfl
@[simp] theorem State.setSinkRoom_mem (r : Option Nat) : (s.setSinkRoom r).mem = s.mem := rfl
@[simp] theorem State.setSinkRoom_input (r : Option Nat) : (s.setSinkRoom r).input = s.input := rfl
@[simp] theorem State.setSinkRoom_output (r : Option Nat) : (s.setSinkRoom r).output = s.output := rfl
@[simp] theorem State.setSinkRoom_sinkRoom (r : Option Nat) : (s.setSinkRoom r).sinkRoom = r := rfl
@[simp] theorem State.setSinkRoom_waiting (r : Option Nat) : (s.setSinkRoom r).waiting = s.waiting := rfl
@[simp] theorem State.setSinkRoom_cfg (r : Option Nat) : (s.setSinkRoom r).cfg = s.cfg := rfl
@[simp] theorem State.setSinkRoom_x (r : Option Nat) (j : RegSel) : (s.setSinkRoom r).x j = s.x j := rfl
@[simp] theorem State.setSinkRoom_memRead (r : Option Nat) (b : Word) : (s.setSinkRoom r).memRead b = s.memRead b := rfl

/-! ### emit -/

@[simp] theorem State.emit_regs (o : HostOutput) : (s.emit o).regs = s.regs := rfl
@[simp] theorem State.emit_pc (o : HostOutput) : (s.emit o).pc = s.pc := rfl
@[simp] theorem State.emit_cond (o : HostOutput) : (s.emit o).cond = s.cond := rfl
@[simp] theorem State.emit_run (o : HostOutput) : (s.emit o).run = s.run := rfl
@[simp] theorem State.emit_mem (o : HostOutput) : (s.emit o).mem = s.mem := rfl
@[simp] theorem State.emit_input (o : HostOutput) : (s.emit o).input = s.input := rfl
@[simp] theorem State.emit_output (o : HostOutput) : (s.emit o).output = s.output ++ [o] := rfl
@[simp] theorem State.emit_sinkRoom (o : HostOutput) : (s.emit o).sinkRoom = s.sinkRoom := rfl
@[simp] theorem State.emit_waiting (o : HostOutput) : (s.emit o).waiting = s.waiting := rfl
@[simp] theorem State.emit_cfg (o : HostOutput) : (s.emit o).cfg = s.cfg := rfl
@[simp] theorem State.emit_x (o : HostOutput) (j : RegSel) : (s.emit o).x j = s.x j := rfl
@[simp] theorem State.emit_memRead (o : HostOutput) (b : Word) : (s.emit o).memRead b = s.memRead b := rfl

/-! ### memWrite -/

@[simp] theorem State.memWrite_regs (a v : Word) : (s.memWrite a v).regs = s.regs := rfl
@[simp] theorem State.memWrite_pc (a v : Word) : (s.memWrite a v).pc = s.pc := rfl
@[simp] theorem State.memWrite_cond (a v : Word) : (s.memWrite a v).cond = s.cond := rfl
@[simp] theorem State.memWrite_run (a v : Word) : (s.memWrite a v).run = s.run := rfl
@[simp] theorem State.memWrite_mem (a v : Word) : (s.memWrite a v).mem = s.mem.write a v := rfl
@[simp] theorem State.memWrite_input (a v : Word) : (s.memWrite a v).input = s.input := rfl
@[simp] theorem State.memWrite_output (a v : Word) : (s.memWrite a v).output = s.output := rfl
@[simp] theorem State.memWrite_sinkRoom (a v : Word) : (s.memWrite a v).sinkRoom = s.sinkRoom := rfl
@[simp] theorem State.memWrite_waiting (a v : Word) : (s.memWrite a v).waiting = s.waiting := rfl
@[simp] theorem State.memWrite_cfg (a v : Word) : (s.memWrite a v).cfg = s.cfg := rfl
@[simp] theorem State.memWrite_x (a v : Word) (j : RegSel) : (s.memWrite a v).x j = s.x j := rfl

/-! ### advance -/

@[simp] theorem State.advance_regs : (s.advance).regs = s.regs := rfl
@[simp] theorem State.advance_pc : (s.advance).pc = s.pc + 1 := rfl
@[simp] theorem State.advance_cond : (s.advance).cond = s.cond := rfl
@[simp] theorem State.advance_run : (s.advance).run = s.run := rfl
@[simp] theorem State.advance_mem : (s.advance).mem = s.mem := rfl
@[simp] theorem State.advance_input : (s.advance).input = s.input := rfl
@[simp] theorem State.advance_output : (s.advance).output = s.output := rfl
@[simp] theorem State.advance_sinkRoom : (s.advance).sinkRoom = s.sinkRoom := rfl
@[simp] theorem State.advance_waiting : (s.advance).waiting = s.waiting := rfl
@[simp] theorem State.advance_cfg : (s.advance).cfg = s.cfg := rfl
@[simp] theorem State.advance_x (j : RegSel) : (s.advance).x j = s.x j := rfl
@[simp] theorem State.advance_memRead (b : Word) : (s.advance).memRead b = s.memRead b := rfl

/-! ### link -/

@[simp] theorem link_regs : (link s).regs = s.regs.set 7 s.pc := rfl
@[simp] theorem link_pc : (link s).pc = s.pc := rfl
@[simp] theorem link_cond : (link s).cond = s.cond := rfl
@[simp] theorem link_run : (link s).run = s.run := rfl
@[simp] theorem link_mem : (link s).mem = s.mem := rfl
@[simp] theorem link_input : (link s).input = s.input := rfl
@[simp] theorem link_output : (link s).output = s.output := rfl
@[simp] theorem link_sinkRoom : (link s).sinkRoom = s.sinkRoom := rfl
@[simp] theorem link_waiting : (link s).waiting = s.waiting := rfl
@[simp] theorem link_cfg : (link s).cfg = s.cfg := rfl
@[simp] theorem link_memRead (b : Word) : (link s).memRead b = s.memRead b := rfl

/-! ### raise -/

@[simp] theorem raise_regs (c : FatalCause) : (raise c s).regs = s.regs := rfl
@[simp] theorem raise_pc (c : FatalCause) : (raise c s).pc = s.pc := rfl
@[simp] theorem raise_cond (c : FatalCause) : (raise c s).cond = s.cond := rfl
@[simp] theorem raise_run (c : FatalCause) : (raise c s).run = .faulted c := rfl
@[simp] theorem raise_mem (c : FatalCause) : (raise c s).mem = s.mem := rfl
@[simp] theorem raise_input (c : FatalCause) : (raise c s).input = s.input := rfl
@[simp] theorem raise_output (c : FatalCause) : (raise c s).output = s.output := rfl
@[simp] theorem raise_sinkRoom (c : FatalCause) : (raise c s).sinkRoom = s.sinkRoom := rfl
@[simp] theorem raise_waiting (c : FatalCause) : (raise c s).waiting = s.waiting := rfl
@[simp] theorem raise_cfg (c : FatalCause) : (raise c s).cfg = s.cfg := rfl
@[simp] theorem raise_x (c : FatalCause) (j : RegSel) : (raise c s).x j = s.x j := rfl
@[simp] theorem raise_memRead (c : FatalCause) (b : Word) : (raise c s).memRead b = s.memRead b := rfl

/-! ### hostFlush -/

@[simp] theorem hostFlush_regs : (hostFlush s).regs = s.regs := rfl
@[simp] theorem hostFlush_pc : (hostFlush s).pc = s.pc := rfl
@[simp] theorem hostFlush_cond : (hostFlush s).cond = s.cond := rfl
@[simp] theorem hostFlush_run : (hostFlush s).run = s.run := rfl
@[simp] theorem hostFlush_mem : (hostFlush s).mem = s.mem := rfl
@[simp] theorem hostFlush_input : (hostFlush s).input = s.input := rfl
@[simp] theorem hostFlush_output : (hostFlush s).output = s.output ++ [.flush] := rfl
@[simp] theorem hostFlush_sinkRoom : (hostFlush s).sinkRoom = s.sinkRoom := rfl
@[simp] theorem hostFlush_waiting : (hostFlush s).waiting = s.waiting := rfl
@[simp] theorem hostFlush_cfg : (hostFlush s).cfg = s.cfg := rfl
@[simp] theorem hostFlush_x (j : RegSel) : (hostFlush s).x j = s.x j := rfl
@[simp] theorem hostFlush_memRead (b : Word) : (hostFlush s).memRead b = s.memRead b := rfl

/-! ### setcc -/

@[simp] theorem setcc_regs (i : RegSel) : (setcc i s).regs = s.regs := rfl
@[simp] theorem setcc_pc (i : RegSel) : (setcc i s).pc = s.pc := rfl
@[simp] theorem setcc_cond (i : RegSel) : (setcc i s).cond = condOf (s.x i) := rfl
@[simp] theorem setcc_run (i : RegSel) : (setcc i s).run = s.run := rfl
@[simp] theorem setcc_mem (i : RegSel) : (setcc i s).mem = s.mem := rfl
@[simp] theorem setcc_input (i : RegSel) : (setcc i s).input = s.input := rfl
@[simp] theorem setcc_output (i : RegSel) : (setcc i s).output = s.output := rfl
@[simp] theorem setcc_sinkRoom (i : RegSel) : (setcc i s).sinkRoom = s.sinkRoom := rfl
@[simp] theorem setcc_waiting (i : RegSel) : (setcc i s).waiting = s.waiting := rfl
@[simp] theorem setcc_cfg (i : RegSel) : (setcc i s).cfg = s.cfg := rfl
@[simp] theorem setcc_x (i : RegSel) (j : RegSel) : (setcc i s).x j = s.x j := rfl
@[simp] theorem setcc_memRead (i : RegSel) (b : Word) : (setcc i s).memRead b = s.memRead b := rfl

end Sys2Proof.Machine
end

