-- ==== Sys2Proof/Laws/Ops.lean ====
section
/-! SUPPORT. What each shared operation does, said once: registers, memory, flags, `Flow`, the host streams, the string
loops and the services. Later proofs cite these and do not unfold the operations. -/

namespace Sys2Proof.Machine

/-! ### Registers and memory -/

/-- A register read after a register write (R10: no register is hard-wired). -/
theorem State.x_writeReg (s : State) (i j : RegSel) (v : Word) :
    (s.writeReg i v).x j = if j = i then v else s.x j := by
  simp only [State.x, State.writeReg, Vector.getElem_set]
  simp [BitVec.toNat_inj, eq_comm]

@[simp] theorem State.x_writeReg_same (s : State) (i : RegSel) (v : Word) : (s.writeReg i v).x i = v := by
  simp [State.x_writeReg]

theorem State.x_writeReg_ne (s : State) {i j : RegSel} (v : Word) (h : j ≠ i) : (s.writeReg i v).x j = s.x j := by
  simp [State.x_writeReg, h]

/-- A register read after the link write (R93, R120). -/
theorem link_x (s : State) (j : RegSel) : (link s).x j = if j = 7#3 then s.pc else s.x j := State.x_writeReg ..

@[simp] theorem link_x_seven (s : State) : (link s).x 7#3 = s.pc := by simp [link_x]

@[simp] theorem link_x_zero (s : State) : (link s).x 0#3 = s.x 0#3 := by simp [link_x]

@[simp] theorem State.setMem_memRead (s : State) (m : Memory) (b : Word) : (s.setMem m).memRead b = m.read b := rfl

/-- A word read after a store (R33). -/
theorem State.memRead_memWrite {s : State} (h : s.mem.wf = true) (a v b : Word) :
    (s.memWrite a v).memRead b = if b = a then v else s.memRead b := Memory.read_write h ..

/-- Two states with the same registers read the same. -/
theorem State.x_eq_of_regs {s t : State} (h : t.regs = s.regs) (r : RegSel) : t.x r = s.x r := by
  simp [State.x, h]

/-- Two states with the same memory read the same. -/
theorem State.memRead_eq_of_mem {s t : State} (h : t.mem = s.mem) (a : Word) : t.memRead a = s.memRead a := by
  simp [State.memRead, h]

/-! ### Flags -/

/-- The flag rule by number (R16). -/
theorem flagsFor_condOf (v : Word) : FlagsFor v (condOf v) := by
  have hz : v = 0#16 ↔ v.toNat = 0 := by rw [← BitVec.toNat_inj]; simp
  have hm : v.msb = true ↔ 0x8000 ≤ v.toNat := by rw [BitVec.msb_eq_decide]; simp
  constructor <;> intro h <;> simp only [condOf]
  · rw [if_pos (hz.mpr h)]
  · rw [if_neg (fun e => by have := hz.mp e; omega), if_pos (hm.mpr h)]
  · rw [if_neg (fun e => by have := hz.mp e; omega), if_neg (fun e => by have := hm.mp e; omega)]

/-- `x[i] <- v; setcc(i)`: everything it does. -/
theorem State.writeRegSetcc_eq (s : State) (i : RegSel) (v : Word) :
    s.writeRegSetcc i v = (s.writeReg i v).setCond (condOf v) := by
  simp [State.writeRegSetcc, setcc]

/-- `x[i] <- v; setcc(i)` writes the register and the flags and nothing else (R86, R108). -/
theorem State.writeRegSetcc_wrote (s : State) (i : RegSel) (v : Word) :
    WroteRegCond i v s (s.writeRegSetcc i v) := by
  rw [State.writeRegSetcc_eq]
  refine ⟨by simp, flagsFor_condOf v, fun r hr => ?_, rfl, rfl, fun a => rfl, ⟨rfl, rfl, rfl, rfl, rfl⟩⟩
  simpa using State.x_writeReg_ne s v (by simpa using hr)

/-- A store writes one word and nothing else (R108). -/
theorem State.memWrite_wrote {s : State} (h : s.mem.wf = true) (a v : Word) : WroteMemory a v s (s.memWrite a v) :=
  ⟨by simp [State.memRead_memWrite h], fun b hb => by simp [State.memRead_memWrite h, hb], fun _ _ => rfl, rfl, rfl, rfl,
    ⟨rfl, rfl, rfl, rfl, rfl⟩⟩

/-! ### Flow -/

@[simp] theorem Flow.andThen_done (s : State) (k : State → Flow) : (Flow.done s).andThen k = k s := rfl
@[simp] theorem Flow.andThen_raised (s : State) (k : State → Flow) : (Flow.raised s).andThen k = .raised s := rfl
@[simp] theorem Flow.andThen_waits (s : State) (k : State → Flow) : (Flow.waits s).andThen k = .waits s := rfl
@[simp] theorem Flow.andThen_endless (k : State → Flow) : Flow.endless.andThen k = .endless := rfl
@[simp] theorem Flow.outcome_done (s : State) : (Flow.done s).outcome = .next s := rfl
@[simp] theorem Flow.outcome_raised (s : State) : (Flow.raised s).outcome = .next s := rfl
@[simp] theorem Flow.outcome_waits (s : State) : (Flow.waits s).outcome = .next s := rfl
@[simp] theorem Flow.outcome_endless : Flow.endless.outcome = .fault .serviceNeverEnds := rfl

/-- A flow answers a next state exactly where it does not run for ever. -/
theorem Flow.outcome_next {f : Flow} {t : State} :
    f.outcome = .next t ↔ f = .done t ∨ f = .raised t ∨ f = .waits t := by
  cases f <;> simp

/-- A flow's only fault is the service that never ends. -/
theorem Flow.outcome_fault {f : Flow} {r : Fault} : f.outcome = .fault r ↔ f = .endless := by
  cases f <;> cases r <;> simp

theorem Flow.outcome_ne_refused (f : Flow) (r : Refusal) : f.outcome ≠ .refused r := by cases f <;> simp

/-- Statement order associates. -/
theorem Flow.andThen_assoc (f : Flow) (k l : State → Flow) :
    (f.andThen k).andThen l = f.andThen fun s => (k s).andThen l := by cases f <;> rfl

/-- Every state a flow may end in satisfies `P`. -/
def Flow.All (P : State → Prop) : Flow → Prop
  | .done s | .raised s | .waits s => P s
  | .endless => True

theorem Flow.All.of_next {P : State → Prop} {f : Flow} (h : f.All P) {t : State} (ht : f.outcome = .next t) : P t := by
  cases f <;> simp_all [Flow.All]

/-- A property of the parts is a property of the whole. -/
theorem Flow.All.andThen {P Q : State → Prop} {f : Flow} {k : State → Flow} (hf : f.All P)
    (hPQ : ∀ s, P s → Q s) (hk : ∀ s, P s → (k s).All Q) : (f.andThen k).All Q := by
  cases f with
  | done s => exact hk s hf
  | raised s => exact hPQ s hf
  | waits s => exact hPQ s hf
  | endless => trivial

theorem Flow.All.mono {P Q : State → Prop} {f : Flow} (hf : f.All P) (h : ∀ s, P s → Q s) : f.All Q := by
  cases f <;> first | exact h _ hf | trivial

/-! ### The output stream -/

/-- What sending bytes may change: the output grows, the sink's room shrinks, `run` may become FAULTED(HostIOFailure). -/
structure Sent (s t : State) : Prop where
  regs : t.regs = s.regs
  pc : t.pc = s.pc
  cond : t.cond = s.cond
  run : t.run = s.run ∨ t.run = .faulted .hostIOFailure
  mem : t.mem = s.mem
  input : t.input = s.input
  output : s.output <+: t.output
  waiting : t.waiting = s.waiting
  cfg : t.cfg = s.cfg

theorem Sent.refl (s : State) : Sent s s := ⟨rfl, rfl, rfl, .inl rfl, rfl, rfl, List.prefix_rfl, rfl, rfl⟩

theorem Sent.trans {s t u : State} (h : Sent s t) (k : Sent t u) : Sent s u where
  regs := k.regs.trans h.regs
  pc := k.pc.trans h.pc
  cond := k.cond.trans h.cond
  run := k.run.elim (fun e => h.run.elim (fun f => .inl (e.trans f)) fun f => .inr (e.trans f)) .inr
  mem := k.mem.trans h.mem
  input := k.input.trans h.input
  output := h.output.trans k.output
  waiting := k.waiting.trans h.waiting
  cfg := k.cfg.trans h.cfg

theorem Sent.hostFlush (s : State) : Sent s (hostFlush s) :=
  ⟨rfl, rfl, rfl, .inl rfl, rfl, rfl, ⟨[.flush], rfl⟩, rfl, rfl⟩

/-- HostOut: the byte is appended, or the sink fails at it. -/
theorem hostOut_sent (b : Byte) (s : State) : (hostOut b s).All (Sent s) := by
  unfold hostOut
  split
  · exact ⟨rfl, rfl, rfl, .inl rfl, rfl, rfl, ⟨[.byte b], rfl⟩, rfl, rfl⟩
  · exact ⟨rfl, rfl, rfl, .inr rfl, rfl, rfl, List.prefix_rfl, rfl, rfl⟩
  · exact ⟨rfl, rfl, rfl, .inl rfl, rfl, rfl, ⟨[.byte b], rfl⟩, rfl, rfl⟩

theorem Flow.All.andThen_sent {s : State} {f : Flow} {k : State → Flow} (hf : f.All (Sent s))
    (hk : ∀ t, Sent s t → (k t).All (Sent t)) : (f.andThen k).All (Sent s) :=
  hf.andThen (fun _ h => h) fun t ht => (hk t ht).mono fun _ => ht.trans

theorem hostOutAll_sent (bs : List Byte) : ∀ s, (hostOutAll bs s).All (Sent s) := by
  induction bs with
  | nil => exact fun s => Sent.refl s
  | cons b bs ih => exact fun s => (hostOut_sent b s).andThen_sent fun t _ => ih t

theorem putsLoop_sent (fuel : Nat) : ∀ a s, (putsLoop fuel a s).All (Sent s) := by
  induction fuel with
  | zero => exact fun _ _ => trivial
  | succ n ih =>
    intro a s
    unfold putsLoop
    split
    · exact Sent.refl s
    · exact (hostOutAll_sent _ s).andThen_sent fun t _ => ih _ t

theorem putspLoop_sent (fuel : Nat) : ∀ a s, (putspLoop fuel a s).All (Sent s) := by
  induction fuel with
  | zero => exact fun _ _ => trivial
  | succ n ih =>
    intro a s
    unfold putspLoop
    split
    · exact Sent.refl s
    · refine (hostOut_sent _ s).andThen_sent fun t _ => ?_
      split
      · exact Sent.refl t
      · exact (hostOut_sent _ t).andThen_sent fun u _ => ih _ u

/-- A sink with room takes the bytes: they are appended in order and the room shrinks by their number. -/
theorem hostOutAll_done (bs : List Byte) : ∀ s : State, s.sinkTakes bs.length →
    hostOutAll bs s = .done { s with output := s.output ++ asOutput bs, sinkRoom := s.roomAfter bs.length } := by
  induction bs with
  | nil =>
    intro s _
    cases hr : s.sinkRoom <;> simp [hostOutAll, asOutput, State.roomAfter, hr] <;> rw [← hr]
  | cons b bs ih =>
    intro s h
    cases hr : s.sinkRoom with
    | none =>
      simp only [hostOutAll, hostOut, hr, Flow.andThen_done]
      rw [ih _ (.inl (by simp [hr]))]
      simp [State.emit, asOutput, State.roomAfter, hr]
    | some m =>
      obtain h | ⟨k, h, hk⟩ := h
      · simp [hr] at h
      obtain rfl : m = k := by simpa [hr] using h
      obtain ⟨m, rfl⟩ : ∃ j, m = j + 1 := ⟨m - 1, by simp at hk; omega⟩
      simp only [hostOutAll, hostOut, hr, Flow.andThen_done]
      rw [ih _ (.inr ⟨m, by simp, by simpa using hk⟩)]
      simp [State.emit, State.setSinkRoom, asOutput, State.roomAfter, hr]

/-- A sink without room for all the bytes takes those it has room for and fails at the next (R142). -/
theorem hostOutAll_raised (bs : List Byte) : ∀ (s : State) (n : Nat), s.sinkRoom = some n → n < bs.length →
    hostOutAll bs s =
      .raised (raise .hostIOFailure { s with output := s.output ++ asOutput (bs.take n), sinkRoom := some 0 }) := by
  induction bs with
  | nil => intro s n _ h; simp at h
  | cons b bs ih =>
    intro s n hr h
    cases n with
    | zero => simp [hostOutAll, hostOut, hr, asOutput]; rw [← hr]
    | succ n =>
      simp only [hostOutAll, hostOut, hr, Flow.andThen_done]
      rw [ih _ n rfl (by simpa using h)]
      simp [State.emit, State.setSinkRoom, asOutput]

/-- One byte to a sink with room. -/
theorem hostOut_done (b : Byte) {s : State} (h : s.sinkTakes 1) :
    hostOut b s = .done { s with output := s.output ++ [.byte b], sinkRoom := s.roomAfter 1 } := by
  have := hostOutAll_done [b] s h
  have e : (hostOut b s).andThen Flow.done = hostOut b s := by cases hostOut b s <;> rfl
  simpa [hostOutAll, asOutput, show (fun s => Flow.done s) = Flow.done from rfl, e] using
    (show (hostOut b s).andThen (hostOutAll []) = _ from this)

/-- One byte to a sink without room. -/
theorem hostOut_raised (b : Byte) {s : State} (h : s.sinkRoom = some 0) :
    hostOut b s = .raised (raise .hostIOFailure s) := by simp [hostOut, h]

/-! ### The input stream -/

@[simp] theorem hostIn_byte {p : WaitPoint} {k : Byte → State → Flow} {s : State} {b : Byte} {l : List HostInput}
    (h : s.input = .byte b :: l) : hostIn p k s = k b ((s.setInput l).setWaiting none) := by simp [hostIn, h]

@[simp] theorem hostIn_notYet {p : WaitPoint} {k : Byte → State → Flow} {s : State} {l : List HostInput}
    (h : s.input = .notYet :: l) : hostIn p k s = .waits ((s.setInput l).setWaiting (some p)) := by simp [hostIn, h]

@[simp] theorem hostIn_failure {p : WaitPoint} {k : Byte → State → Flow} {s : State} {l : List HostInput}
    (h : s.input = .failure :: l) : hostIn p k s = .raised (raise .hostIOFailure (s.setWaiting none)) := by
  simp [hostIn, h]

@[simp] theorem hostIn_silent {p : WaitPoint} {k : Byte → State → Flow} {s : State}
    (h : s.input = []) : hostIn p k s = .waits (s.setWaiting (some p)) := by simp [hostIn, h]

/-! ### The two reading services from their HostIn() on (R124, R127) -/

theorem getcRead_byte {s : State} {b : Byte} {l : List HostInput} (h : s.input = .byte b :: l) :
    getcRead s = .done (((s.setInput l).setWaiting none).writeRegSetcc 0#3 (zext b)) := hostIn_byte h

theorem getcRead_notYet {s : State} {l : List HostInput} (h : s.input = .notYet :: l) :
    getcRead s = .waits ((s.setInput l).setWaiting (some .getc)) := hostIn_notYet h

theorem getcRead_failure {s : State} {l : List HostInput} (h : s.input = .failure :: l) :
    getcRead s = .raised (raise .hostIOFailure (s.setWaiting none)) := hostIn_failure h

theorem getcRead_silent {s : State} (h : s.input = []) : getcRead s = .waits (s.setWaiting (some .getc)) :=
  hostIn_silent h

theorem inRead_byte {s : State} {b : Byte} {l : List HostInput} (h : s.input = .byte b :: l) :
    inRead s = (hostOut b ((s.setInput l).setWaiting none)).andThen fun t => .done (t.writeRegSetcc 0#3 (zext b)) :=
  hostIn_byte h

theorem inRead_notYet {s : State} {l : List HostInput} (h : s.input = .notYet :: l) :
    inRead s = .waits ((s.setInput l).setWaiting (some .inp)) := hostIn_notYet h

theorem inRead_failure {s : State} {l : List HostInput} (h : s.input = .failure :: l) :
    inRead s = .raised (raise .hostIOFailure (s.setWaiting none)) := hostIn_failure h

theorem inRead_silent {s : State} (h : s.input = []) : inRead s = .waits (s.setWaiting (some .inp)) :=
  hostIn_silent h

/-! ### The trap table -/

@[simp] theorem trapTable_getc (s : State) : trapTable 0x20#8 s = svcGetc s := rfl
@[simp] theorem trapTable_out (s : State) : trapTable 0x21#8 s = svcOut s := rfl
@[simp] theorem trapTable_puts (s : State) : trapTable 0x22#8 s = svcPuts s := rfl
@[simp] theorem trapTable_in (s : State) : trapTable 0x23#8 s = svcIn s := rfl
@[simp] theorem trapTable_putsp (s : State) : trapTable 0x24#8 s = svcPutsp s := rfl
@[simp] theorem trapTable_halt (s : State) : trapTable 0x25#8 s = svcHalt s := rfl

/-- A vector outside 0x20 .. 0x25 is none of the six (R121). -/
theorem not_isServiceVector {v : BitVec 8} (h : isServiceVector v = false) :
    v ≠ 0x20#8 ∧ v ≠ 0x21#8 ∧ v ≠ 0x22#8 ∧ v ≠ 0x23#8 ∧ v ≠ 0x24#8 ∧ v ≠ 0x25#8 := by
  refine ⟨?_, ?_, ?_, ?_, ?_, ?_⟩ <;> (rintro rfl; simp [isServiceVector] at h)

/-- The six vectors, one by one (R121). -/
theorem isServiceVector_cases {v : BitVec 8} (h : isServiceVector v = true) :
    v = 0x20#8 ∨ v = 0x21#8 ∨ v = 0x22#8 ∨ v = 0x23#8 ∨ v = 0x24#8 ∨ v = 0x25#8 := by
  simp only [isServiceVector, decide_eq_true_eq] at h
  simp only [← BitVec.toNat_inj]
  simp
  omega

theorem trapTable_invalid {v : BitVec 8} (h : isServiceVector v = false) (s : State) :
    trapTable v s = .raised (raise (.invalidTrapVector v) s) := by
  obtain ⟨h0, h1, h2, h3, h4, h5⟩ := not_isServiceVector h
  simp [trapTable, h0, h1, h2, h3, h4, h5]

end Sys2Proof.Machine
end

