-- ==== Sys2Proof/Laws/Services.lean ====
section
/-! SUPPORT. What the trap services may change, said once for all of them, and the frame of a TRAP
(spec/43_trap_system.md R120, spec/60_exceptions.md R142, R150). -/

namespace Sys2Proof.Machine

/-- The link write touches `x[7]` alone. -/
theorem link_regsSameBut (s : State) : RegsSameBut [7#3] s (link s) := fun r h => by simp at h; simp [link_x, h]

/-- A TRAP that after its link only sends: the frame with no register but the link. -/
theorem Sent.trapFrame {s t : State} (h : Sent (link s) t) : TrapFrame [] s t where
  linked := by rw [State.x_eq_of_regs h.regs]; simp
  regs r hr := by rw [State.x_eq_of_regs h.regs]; exact link_regsSameBut s r (by simpa using hr)
  pc := h.pc
  memory a := State.memRead_eq_of_mem h.mem a
  cfg := h.cfg

/-- What any service may change: `x[0]` and the flags, the run state, the wait point and the sink's room; the output
grows and the input is consumed from the front. -/
structure Served (s t : State) : Prop where
  regs : ∀ r, r ≠ 0#3 → t.x r = s.x r
  pc : t.pc = s.pc
  mem : t.mem = s.mem
  output : s.output <+: t.output
  input : t.input <:+ s.input
  cfg : t.cfg = s.cfg

theorem Sent.served {s t : State} (h : Sent s t) : Served s t :=
  ⟨fun r _ => State.x_eq_of_regs h.regs r, h.pc, h.mem, h.output, h.input ▸ List.suffix_rfl, h.cfg⟩

theorem Served.trans {s t u : State} (h : Served s t) (k : Served t u) : Served s u where
  regs r hr := (k.regs r hr).trans (h.regs r hr)
  pc := k.pc.trans h.pc
  mem := k.mem.trans h.mem
  output := h.output.trans k.output
  input := k.input.trans h.input
  cfg := k.cfg.trans h.cfg

/-- A TRAP's frame from what its service may change. -/
theorem Served.trapFrame {s t : State} (h : Served (link s) t) : TrapFrame [0#3] s t where
  linked := by rw [h.regs _ (by decide)]; simp
  regs r hr := by simp at hr; rw [h.regs _ hr.2]; simp [link_x, hr.1]
  pc := h.pc
  memory a := State.memRead_eq_of_mem h.mem a
  cfg := h.cfg

theorem served_writeRegSetcc_zero (s : State) (v : Word) : Served s (s.writeRegSetcc 0#3 v) := by
  rw [State.writeRegSetcc_eq]
  exact ⟨fun r h => by simp [State.x_writeReg, h], rfl, rfl, List.prefix_rfl, List.suffix_rfl, rfl⟩

theorem hostIn_served (p : WaitPoint) (k : Byte → State → Flow) (hk : ∀ b t, (k b t).All (Served t)) (s : State) :
    (hostIn p k s).All (Served s) := by
  unfold hostIn
  split
  · rename_i b more h
    exact (hk b _).mono fun u hu => Served.trans (t := (s.setInput more).setWaiting none)
      ⟨fun _ _ => rfl, rfl, rfl, List.prefix_rfl, by simp [h], rfl⟩ hu
  · rename_i more h
    exact ⟨fun _ _ => rfl, rfl, rfl, List.prefix_rfl, by simp [h], rfl⟩
  · exact ⟨fun _ _ => rfl, rfl, rfl, List.prefix_rfl, List.suffix_rfl, rfl⟩
  · exact ⟨fun _ _ => rfl, rfl, rfl, List.prefix_rfl, List.suffix_rfl, rfl⟩

/-- A service that goes on after a wait. -/
theorem resume_served (p : WaitPoint) (s : State) : (resume p s).All (Served s) := by
  cases p with
  | getc =>
    exact hostIn_served .getc (fun c t => .done (t.writeRegSetcc 0#3 (zext c))) (fun _ t => served_writeRegSetcc_zero t _) s
  | inp =>
    refine hostIn_served .inp (fun c t => (hostOut c t).andThen fun u => .done (u.writeRegSetcc 0#3 (zext c)))
      (fun b t => ?_) s
    exact ((hostOut_sent b t).mono fun _ h => h.served).andThen (fun _ h => h) fun u hu =>
      hu.trans (served_writeRegSetcc_zero u _)

theorem Flow.All.andThen_served {s : State} {f : Flow} {k : State → Flow} (hf : f.All (Sent s))
    (hk : ∀ t, (k t).All (Served t)) : (f.andThen k).All (Served s) :=
  (hf.mono fun _ h => h.served).andThen (fun _ h => h) fun t ht => (hk t).mono fun _ => ht.trans

/-- Every service, by its vector, and the invalid vectors (R120). -/
theorem trapTable_served (v : BitVec 8) (s : State) : (trapTable v s).All (Served s) := by
  unfold trapTable
  split; · exact resume_served .getc s
  split; · exact (hostOut_sent _ s).andThen_served fun t => (Sent.hostFlush t).served
  split; · exact (putsLoop_sent _ _ s).andThen_served fun t => (Sent.hostFlush t).served
  split
  · exact (hostOutAll_sent _ s).andThen_served fun t =>
      (resume_served .inp _).mono fun _ => (Sent.hostFlush t).served.trans
  split; · exact (putspLoop_sent _ _ s).andThen_served fun t => (Sent.hostFlush t).served
  split
  · exact (hostOutAll_sent _ s).andThen_served fun t =>
      ⟨fun _ _ => rfl, rfl, rfl, ⟨[.flush], rfl⟩, List.suffix_rfl, rfl⟩
  exact ⟨fun _ _ => rfl, rfl, rfl, List.prefix_rfl, List.suffix_rfl, rfl⟩

end Sys2Proof.Machine
end

