-- ==== Sys2Proof/Laws/Step.lean ====
section
/-! SUPPORT. What a step, and what `exec`, can do, said once: the inversion lemmas from which the claims about the whole
machine follow (spec/10_state.md R19, R20; spec/43_trap_system.md R120). -/

namespace Sys2Proof.Machine

/-! ### The step -/

/-- While the block runs and no service waits, a step is fetch, advance, execute (R20). -/
theorem step_fetches {s : State} (hr : s.run = .running) (hw : s.waiting = none) :
    step s = exec (decode s.fetch) s.advance := by simp [step, hr, hw]

/-- While a service waits, a step goes on with it (R25(b)). -/
theorem step_resumes {s : State} {p : WaitPoint} (hr : s.run = .running) (hw : s.waiting = some p) :
    step s = resumeStep p s := by simp [step, hr, hw]

/-- In HALTED and FAULTED a step has no effect (R19, D24). -/
theorem step_stopped {s : State} (hr : s.run ≠ .running) : step s = .next s := by
  unfold step; split <;> first | rfl | contradiction

/-- The three ways a step answers a next state. -/
theorem step_next {s t : State} (h : step s = .next t) :
    (s.run = .running ∧ s.waiting = none ∧ exec (decode s.fetch) s.advance = .next t) ∨
      (s.run = .running ∧ ∃ p, s.waiting = some p ∧ resumeStep p s = .next t) ∨ (s.run ≠ .running ∧ t = s) := by
  by_cases hr : s.run = .running
  · cases hw : s.waiting with
    | none => exact .inl ⟨hr, rfl, step_fetches hr hw ▸ h⟩
    | some p => exact .inr (.inl ⟨hr, p, rfl, step_resumes hr hw ▸ h⟩)
  · rw [step_stopped hr] at h
    exact .inr (.inr ⟨hr, by cases h; rfl⟩)

/-! ### Several steps -/

/-- A run of a machine, one step unfolded. -/
theorem run_succ (M : Host.Core) (k : Nat) (s : M.State) :
    M.run (k + 1) s =
      match M.step s with
      | .next t => M.run k t
      | .fault r => .fault r
      | .refused r => .refused r := rfl

/-- A run goes on from the next state. -/
theorem run_next {s t : State} (h : step s = .next t) (k : Nat) : core.run (k + 1) s = core.run k t := by
  rw [run_succ core k s, show core.step s = Host.Outcome.next t from h]

/-- A run of one step is the step. -/
theorem run_one (s : State) : core.run 1 s = step s := by
  rw [run_succ core 0 s]
  show _ = core.step s
  cases core.step s <;> rfl

/-! ### exec -/

/-- The vector of a row that is a TRAP: the operand, or the service row's own vector (R121). -/
def trapVector : Instr → Option (BitVec 8)
  | .trap _ v => some v
  | .getc _ => some 0x20#8
  | .out _ => some 0x21#8
  | .puts _ => some 0x22#8
  | .inp _ => some 0x23#8
  | .putsp _ => some 0x24#8
  | .halt _ => some 0x25#8
  | .addReg .. | .addImm .. | .andReg .. | .andImm .. | .not .. | .br .. | .jmp .. | .jsr .. | .jsrr .. => none
  | .ld .. | .ldi .. | .lea .. | .st .. | .sti .. | .ldr .. | .str .. | .rti .. | .res .. | .ret .. | .nop .. => none

/-- A TRAP row is the link, then the trap table (R120). -/
theorem exec_trapVector {i : Instr} {v : BitVec 8} (h : trapVector i = some v) (s : State) :
    exec i s = (trapTable v (link s)).outcome := by
  cases i <;> simp [trapVector] at h <;> subst h <;> rfl

/-- What a row that is no TRAP answers: always a next state, one of five shapes (R86, R90, R93, R108, R131, R132). -/
theorem exec_cases {i : Instr} (h : trapVector i = none) (s : State) :
    (∃ r v, i.flagRegister = some r ∧ i.mayWrite = [r] ∧ i.storeAddress s = none ∧
        exec i s = .next (s.writeRegSetcc r v)) ∨
      (∃ a, i.flagRegister = none ∧ i.mayWrite = [] ∧ i.storeAddress s = none ∧ exec i s = .next (s.setPc a)) ∨
      (∃ a, i.flagRegister = none ∧ i.mayWrite = [7#3] ∧ i.storeAddress s = none ∧ exec i s = .next ((link s).setPc a)) ∨
      (∃ a v, i.flagRegister = none ∧ i.mayWrite = [] ∧ i.storeAddress s = some a ∧ exec i s = .next (s.memWrite a v)) ∨
      ∃ c, i.flagRegister = none ∧ i.mayWrite = [] ∧ i.storeAddress s = none ∧ exec i s = .next (raise c s) ∧
        c = (if (∃ p, i = .rti p) then .unsupportedInstruction (encode i) else .invalidOpcode (encode i)) ∧
        ((∃ p, i = .rti p) ∨ ∃ p, i = .res p) := by
  cases i with
  | addReg | addImm | andReg | andImm | not | ld | ldi | ldr | lea => exact .inl ⟨_, _, rfl, rfl, rfl, rfl⟩
  | br n z p off =>
    refine .inr (.inl ⟨if brTaken n z p s.cond then s.pcRelative off else s.pc, rfl, rfl, rfl, ?_⟩)
    simp only [exec, execBr]; split <;> rfl
  | nop off =>
    refine .inr (.inl ⟨if brTaken false false false s.cond then s.pcRelative off else s.pc, rfl, rfl, rfl, ?_⟩)
    simp only [exec, execNop]; split <;> rfl
  | jmp | ret => exact .inr (.inl ⟨_, rfl, rfl, rfl, rfl⟩)
  | jsr | jsrr => exact .inr (.inr (.inl ⟨_, rfl, rfl, rfl, rfl⟩))
  | st | sti | str => exact .inr (.inr (.inr (.inl ⟨_, _, rfl, rfl, rfl, rfl⟩)))
  | rti p => exact .inr (.inr (.inr (.inr ⟨_, rfl, rfl, rfl, rfl, by simp, .inl ⟨p, rfl⟩⟩)))
  | res p => exact .inr (.inr (.inr (.inr ⟨_, rfl, rfl, rfl, rfl, by simp, .inr ⟨p, rfl⟩⟩)))
  | trap | getc | out | puts | inp | putsp | halt => simp [trapVector] at h

/-- No instruction is refused. -/
theorem exec_ne_refused (i : Instr) (s : State) (r : Refusal) : exec i s ≠ .refused r := by
  cases h : trapVector i with
  | some v => rw [exec_trapVector h]; exact Flow.outcome_ne_refused _ r
  | none =>
    obtain ⟨_, _, _, _, _, e⟩ | ⟨_, _, _, _, e⟩ | ⟨_, _, _, _, e⟩ | ⟨_, _, _, _, _, e⟩ | ⟨_, _, _, _, e, _⟩ :=
      exec_cases h s <;> simp [e]

/-! ### How sending ends -/

/-- HostOut never waits and never runs for ever: the byte goes out, or the sink fails at it (R26). -/
theorem hostOut_ends (b : Byte) (s : State) :
    (∃ t, hostOut b s = .done t ∧ t.run = s.run) ∨ ∃ t, hostOut b s = .raised t ∧ t.run = .faulted .hostIOFailure := by
  unfold hostOut
  split
  · exact .inl ⟨_, rfl, rfl⟩
  · exact .inr ⟨_, rfl, rfl⟩
  · exact .inl ⟨_, rfl, rfl⟩

theorem hostOutAll_ends (bs : List Byte) : ∀ s : State,
    (∃ t, hostOutAll bs s = .done t ∧ t.run = s.run) ∨
      ∃ t, hostOutAll bs s = .raised t ∧ t.run = .faulted .hostIOFailure := by
  induction bs with
  | nil => exact fun s => .inl ⟨s, rfl, rfl⟩
  | cons b bs ih =>
    intro s
    obtain ⟨t, e, ht⟩ | ⟨t, e, ht⟩ := hostOut_ends b s
    · obtain ⟨u, f, hu⟩ | ⟨u, f, hu⟩ := ih t
      · exact .inl ⟨u, by simp [hostOutAll, e, f], hu.trans ht⟩
      · exact .inr ⟨u, by simp [hostOutAll, e, f], hu⟩
    · exact .inr ⟨t, by simp [hostOutAll, e], ht⟩

/-- PUTS's loop never waits. -/
theorem putsLoop_ends (fuel : Nat) : ∀ (a : Word) (s : State),
    (∃ t, putsLoop fuel a s = .done t ∧ t.run = s.run) ∨
      (∃ t, putsLoop fuel a s = .raised t ∧ t.run = .faulted .hostIOFailure) ∨ putsLoop fuel a s = .endless := by
  induction fuel with
  | zero => exact fun _ _ => .inr (.inr rfl)
  | succ n ih =>
    intro a s
    unfold putsLoop
    split
    · exact .inl ⟨s, rfl, rfl⟩
    · obtain ⟨t, e, ht⟩ | ⟨t, e, ht⟩ := hostOutAll_ends (putsChar (s.memRead a)) s
      · rw [e, Flow.andThen_done, ← ht]; exact ih _ t
      · exact .inr (.inl ⟨t, by rw [e]; rfl, ht⟩)

/-- PUTSP's loop never waits. -/
theorem putspLoop_ends (fuel : Nat) : ∀ (a : Word) (s : State),
    (∃ t, putspLoop fuel a s = .done t ∧ t.run = s.run) ∨
      (∃ t, putspLoop fuel a s = .raised t ∧ t.run = .faulted .hostIOFailure) ∨ putspLoop fuel a s = .endless := by
  induction fuel with
  | zero => exact fun _ _ => .inr (.inr rfl)
  | succ n ih =>
    intro a s
    unfold putspLoop
    split
    · exact .inl ⟨s, rfl, rfl⟩
    · obtain ⟨t, e, ht⟩ | ⟨t, e, ht⟩ := hostOut_ends (lowByte (s.memRead a)) s
      · rw [e, Flow.andThen_done]
        split
        · exact .inl ⟨t, rfl, ht⟩
        · obtain ⟨u, f, hu⟩ | ⟨u, f, hu⟩ := hostOut_ends (highByte (s.memRead a)) t
          · rw [f, Flow.andThen_done, ← ht, ← hu]; exact ih _ u
          · exact .inr (.inl ⟨u, by rw [f]; rfl, hu⟩)
      · exact .inr (.inl ⟨t, by rw [e]; rfl, ht⟩)

/-- One round of the address space is always allowed (R122). -/
theorem State.stringFuel_ge (s : State) : 65536 ≤ s.stringFuel := by unfold State.stringFuel; split <;> omega

/-- The next address of a string (R126, R128), as an offset from its start. -/
theorem add_one_add_ofNat (a : Word) (k : Nat) : a + 1 + BitVec.ofNat 16 k = a + BitVec.ofNat 16 (k + 1) := by
  rw [BitVec.add_assoc]; congr 1
  apply BitVec.eq_of_toNat_eq; simp; omega

/-! ### How a wait or a read ends -/

/-- How GETC's read ends: the byte in x[0], a wait, or a failed stream (R124). -/
theorem getcRead_ends (s : State) :
    (∃ b more, s.input = .byte b :: more ∧
        getcRead s = .done (((s.setInput more).setWaiting none).writeRegSetcc 0#3 (zext b))) ∨
      (∃ more, getcRead s = .waits ((s.setInput more).setWaiting (some .getc)) ∧ more <:+ s.input) ∨
      getcRead s = .raised (raise .hostIOFailure (s.setWaiting none)) := by
  cases h : s.input with
  | nil => exact .inr (.inl ⟨[], by rw [getcRead_silent h, ← h]; rfl, List.suffix_rfl⟩)
  | cons o more =>
    cases o with
    | byte b => exact .inl ⟨b, more, rfl, getcRead_byte h⟩
    | notYet => exact .inr (.inl ⟨more, getcRead_notYet h, by simp⟩)
    | failure => exact .inr (.inr (getcRead_failure h))

/-- How IN's read ends: as GETC's, or the echo fails before x[0] is written (R127). -/
theorem inRead_ends (s : State) :
    (∃ b more t, s.input = .byte b :: more ∧ hostOut b ((s.setInput more).setWaiting none) = .done t ∧
        inRead s = .done (t.writeRegSetcc 0#3 (zext b))) ∨
      (∃ more, inRead s = .waits ((s.setInput more).setWaiting (some .inp)) ∧ more <:+ s.input) ∨
      (∃ b more, s.input = .byte b :: more ∧
        inRead s = .raised (raise .hostIOFailure ((s.setInput more).setWaiting none))) ∨
      inRead s = .raised (raise .hostIOFailure (s.setWaiting none)) := by
  cases h : s.input with
  | nil => exact .inr (.inl ⟨[], by rw [inRead_silent h, ← h]; rfl, List.suffix_rfl⟩)
  | cons o more =>
    cases o with
    | notYet => exact .inr (.inl ⟨more, inRead_notYet h, by simp⟩)
    | failure => exact .inr (.inr (.inr (inRead_failure h)))
    | byte b =>
      have e := inRead_byte h
      by_cases hr : s.sinkRoom = some 0
      · refine .inr (.inr (.inl ⟨b, more, rfl, ?_⟩))
        rw [e, hostOut_raised b (by simpa using hr)]; rfl
      · obtain ⟨t, f, -⟩ | ⟨t, f, ht⟩ := hostOut_ends b ((s.setInput more).setWaiting none)
        · exact .inl ⟨b, more, t, rfl, f, by rw [e, f]; rfl⟩
        · exfalso; revert f; simp only [hostOut, State.setWaiting_sinkRoom, State.setInput_sinkRoom]
          split <;> simp_all

/-! ### Reset -/

/-- Reset of the reset state is the reset state (R27, R170). -/
theorem applyReset_reset : State.reset.applyReset = State.reset := rfl

/-- The reset state's memory has the canonical form. -/
theorem reset_mem_wf : State.reset.mem.wf = true := Memory.wf_nil

/-- The registers of the reset state (R27). -/
@[simp] theorem State.resetWith_x (cfg : Config) (m : Memory) (i : List HostInput) (r : Option Nat) (j : RegSel) :
    (State.resetWith cfg m i r).x j = 0x0000#16 := by simp [State.x, State.resetWith]

/-- The loader keeps the canonical form (R176). -/
theorem State.loadWords_wf (ws : List Word) : ∀ (a : Word) (s : State), s.mem.wf = true →
    (State.loadWords a ws s).mem.wf = true := by
  induction ws with
  | nil => exact fun _ _ h => h
  | cons w ws ih => exact fun a s h => ih _ _ (Memory.wf_write h a w)

end Sys2Proof.Machine
end

