-- ==== Sys2Proof/Laws/Decoder.lean ====
section
/-! SUPPORT. What the decoder may answer, by the opcode (spec/30_encoding.md R61, R62). -/

namespace Sys2Proof

open Machine (trapVector)

/-- The sixteen opcodes, one by one (R51). -/
theorem opcode_cases (o : BitVec 4) : o = 0#4 ∨ o = 1#4 ∨ o = 2#4 ∨ o = 3#4 ∨ o = 4#4 ∨ o = 5#4 ∨ o = 6#4 ∨ o = 7#4 ∨
    o = 8#4 ∨ o = 9#4 ∨ o = 10#4 ∨ o = 11#4 ∨ o = 12#4 ∨ o = 13#4 ∨ o = 14#4 ∨ o = 15#4 := by revert o; decide

theorem decode_opcode {w : Word} {o : BitVec 4} (h : field 12 4 w = o) : decode w = decodeOpcode o w := by
  rw [decode, h]

/-- Opcode 15 is a TRAP row with the word's vector (R120). -/
theorem trapVector_decode {w : Word} (h : field 12 4 w = 15#4) : trapVector (decode w) = some (field 0 8 w) := by
  rw [decode_opcode h]
  show trapVector (decodeTrap w) = _
  unfold decodeTrap
  simp only []
  split; · simp [trapVector, *]
  split; · simp [trapVector, *]
  split; · simp [trapVector, *]
  split; · simp [trapVector, *]
  split; · simp [trapVector, *]
  split; · simp [trapVector, *]
  rfl

/-- The decoder by the opcode: TRAP, the two stopping opcodes, or a row that is none of them (R61). -/
theorem decode_cases (w : Word) :
    (field 12 4 w = 15#4 ∧ trapVector (decode w) = some (field 0 8 w)) ∨
      (field 12 4 w = 8#4 ∧ decode w = .rti (field 0 12 w)) ∨
      (field 12 4 w = 13#4 ∧ decode w = .res (field 0 12 w)) ∨
      (field 12 4 w ≠ 15#4 ∧ field 12 4 w ≠ 8#4 ∧ field 12 4 w ≠ 13#4 ∧ trapVector (decode w) = none ∧
        (∀ p, decode w ≠ .rti p) ∧ ∀ p, decode w ≠ .res p) := by
  by_cases h15 : field 12 4 w = 15#4; · exact .inl ⟨h15, trapVector_decode h15⟩
  by_cases h8 : field 12 4 w = 8#4; · exact .inr (.inl ⟨h8, by rw [decode_opcode h8]; rfl⟩)
  by_cases h13 : field 12 4 w = 13#4; · exact .inr (.inr (.inl ⟨h13, by rw [decode_opcode h13]; rfl⟩))
  refine .inr (.inr (.inr ⟨h15, h8, h13, ?_⟩))
  suffices ∀ x, x = decode w → trapVector x = none ∧ (∀ p, x ≠ .rti p) ∧ ∀ p, x ≠ .res p from this _ rfl
  intro x hx
  have done : ∀ i : Instr, decode w = i → (trapVector i = none ∧ (∀ p, i ≠ .rti p) ∧ ∀ p, i ≠ .res p) →
      trapVector x = none ∧ (∀ p, x ≠ .rti p) ∧ ∀ p, x ≠ .res p := fun i hi h => by rw [hx, hi]; exact h
  rcases opcode_cases (field 12 4 w) with h | h | h | h | h | h | h | h | h | h | h | h | h | h | h | h <;>
    first
    | contradiction
    | refine done _ (decode_opcode h) ?_
  all_goals
    first
    | simp [decodeOpcode, trapVector]; done
    | simp only [decodeOpcode, decodeBr, decodeAdd, decodeAnd, decodeJsr, decodeJmp, BitVec.reduceEq, if_true, if_false]
      split <;> simp [trapVector]

/-- A word is its opcode and its low 12 bits: what the two stopping opcodes report is the instruction word (R140). -/
theorem word_of_opcode {w : Word} {o : BitVec 4} (h : field 12 4 w = o) :
    place 12 o ||| place 0 (field 0 12 w) = w := by
  subst h
  apply word_ext; intro k hk
  rw [BitVec.getLsbD_or, getLsbD_place, getLsbD_place, getLsbD_field, getLsbD_field]
  by_cases g : k < 12
  · simp [hk, g]
  · simp [hk, g, show 12 ≤ k by omega, show 12 + (k - 12) = k by omega]; omega

end Sys2Proof
end

