-- ==== Sys2Proof/Laws/PerInstr.lean ====
section
/-! SUPPORT. The per-instruction family EncodedRow (LAWS.json): the word the encoder writes is a word of the
instruction's row of spec/opcode_table.json (spec/30_encoding.md R63). One lemma per constructor. -/

namespace Sys2Proof.Laws.EncodedRow

/-- The encoded word lies under the row's mask and match (R63). -/
def Statement (i : Instr) : Prop := i.row.selects (encode i) = true

theorem selected {i : Instr} (p m : Word) (hp : i.row.pattern = p) (hm : i.row.mask = m) (h : p &&& m = p)
    (ho : i.operandBits &&& m = 0) : Statement i := by
  subst hp hm; exact beq_iff_eq.mpr (selects_of_bits h ho)

section
variable {n₁ n₂ n₃ n₄ l₁ l₂ l₃ l₄ : Nat} {v₁ : BitVec n₁} {v₂ : BitVec n₂} {v₃ : BitVec n₃} {v₄ : BitVec n₄} {m : Word}

theorem free1 (h₁ : fieldMask l₁ n₁ &&& m = 0) : place l₁ v₁ &&& m = 0 := place_and_eq_zero _ h₁

theorem free2 (h₁ : fieldMask l₁ n₁ &&& m = 0) (h₂ : fieldMask l₂ n₂ &&& m = 0) :
    (place l₁ v₁ ||| place l₂ v₂) &&& m = 0 := or_and_eq_zero (free1 h₁) (free1 h₂)

theorem free3 (h₁ : fieldMask l₁ n₁ &&& m = 0) (h₂ : fieldMask l₂ n₂ &&& m = 0) (h₃ : fieldMask l₃ n₃ &&& m = 0) :
    (place l₁ v₁ ||| place l₂ v₂ ||| place l₃ v₃) &&& m = 0 := or_and_eq_zero (free2 h₁ h₂) (free1 h₃)

theorem free4 (h₁ : fieldMask l₁ n₁ &&& m = 0) (h₂ : fieldMask l₂ n₂ &&& m = 0) (h₃ : fieldMask l₃ n₃ &&& m = 0)
    (h₄ : fieldMask l₄ n₄ &&& m = 0) :
    (place l₁ v₁ ||| place l₂ v₂ ||| place l₃ v₃ ||| place l₄ v₄) &&& m = 0 := or_and_eq_zero (free3 h₁ h₂ h₃) (free1 h₄)

end


theorem addReg (dr sr1 : RegSel) (pad : BitVec 2) (sr2 : RegSel) : Statement (.addReg dr sr1 pad sr2) :=
  selected 0x1000 0xF020 rfl rfl (by decide) (free4 (by decide) (by decide) (by decide) (by decide))

theorem addImm (dr sr1 : RegSel) (imm5 : BitVec 5) : Statement (.addImm dr sr1 imm5) :=
  selected 0x1020 0xF020 rfl rfl (by decide) (free3 (by decide) (by decide) (by decide))

theorem andReg (dr sr1 : RegSel) (pad : BitVec 2) (sr2 : RegSel) : Statement (.andReg dr sr1 pad sr2) :=
  selected 0x5000 0xF020 rfl rfl (by decide) (free4 (by decide) (by decide) (by decide) (by decide))

theorem andImm (dr sr1 : RegSel) (imm5 : BitVec 5) : Statement (.andImm dr sr1 imm5) :=
  selected 0x5020 0xF020 rfl rfl (by decide) (free3 (by decide) (by decide) (by decide))

theorem not (dr sr : RegSel) (pad : BitVec 6) : Statement (.not dr sr pad) :=
  selected 0x9000 0xF000 rfl rfl (by decide) (free3 (by decide) (by decide) (by decide))

theorem br (n z p : Bool) (off : BitVec 9) : Statement (.br n z p off) :=
  selected 0x0000 0xF000 rfl rfl (by decide) (free4 (by decide) (by decide) (by decide) (by decide))

theorem jmp (padHi : BitVec 3) (baseR : RegSel) (padLo : BitVec 6) : Statement (.jmp padHi baseR padLo) :=
  selected 0xC000 0xF000 rfl rfl (by decide) (free3 (by decide) (by decide) (by decide))

theorem jsr (off : BitVec 11) : Statement (.jsr off) :=
  selected 0x4800 0xF800 rfl rfl (by decide) (free1 (by decide))

theorem jsrr (padHi : BitVec 2) (baseR : RegSel) (padLo : BitVec 6) : Statement (.jsrr padHi baseR padLo) :=
  selected 0x4000 0xF800 rfl rfl (by decide) (free3 (by decide) (by decide) (by decide))

theorem ld (dr : RegSel) (off : BitVec 9) : Statement (.ld dr off) :=
  selected 0x2000 0xF000 rfl rfl (by decide) (free2 (by decide) (by decide))

theorem ldi (dr : RegSel) (off : BitVec 9) : Statement (.ldi dr off) :=
  selected 0xA000 0xF000 rfl rfl (by decide) (free2 (by decide) (by decide))

theorem lea (dr : RegSel) (off : BitVec 9) : Statement (.lea dr off) :=
  selected 0xE000 0xF000 rfl rfl (by decide) (free2 (by decide) (by decide))

theorem st (sr : RegSel) (off : BitVec 9) : Statement (.st sr off) :=
  selected 0x3000 0xF000 rfl rfl (by decide) (free2 (by decide) (by decide))

theorem sti (sr : RegSel) (off : BitVec 9) : Statement (.sti sr off) :=
  selected 0xB000 0xF000 rfl rfl (by decide) (free2 (by decide) (by decide))

theorem ldr (dr baseR : RegSel) (off : BitVec 6) : Statement (.ldr dr baseR off) :=
  selected 0x6000 0xF000 rfl rfl (by decide) (free3 (by decide) (by decide) (by decide))

theorem str (sr baseR : RegSel) (off : BitVec 6) : Statement (.str sr baseR off) :=
  selected 0x7000 0xF000 rfl rfl (by decide) (free3 (by decide) (by decide) (by decide))

theorem trap (pad : BitVec 4) (vect : BitVec 8) : Statement (.trap pad vect) :=
  selected 0xF000 0xF000 rfl rfl (by decide) (free2 (by decide) (by decide))

theorem rti (pad : BitVec 12) : Statement (.rti pad) :=
  selected 0x8000 0xF000 rfl rfl (by decide) (free1 (by decide))

theorem res (pad : BitVec 12) : Statement (.res pad) :=
  selected 0xD000 0xF000 rfl rfl (by decide) (free1 (by decide))

theorem getc (pad : BitVec 4) : Statement (.getc pad) :=
  selected 0xF020 0xF0FF rfl rfl (by decide) (free1 (by decide))

theorem out (pad : BitVec 4) : Statement (.out pad) :=
  selected 0xF021 0xF0FF rfl rfl (by decide) (free1 (by decide))

theorem puts (pad : BitVec 4) : Statement (.puts pad) :=
  selected 0xF022 0xF0FF rfl rfl (by decide) (free1 (by decide))

theorem inp (pad : BitVec 4) : Statement (.inp pad) :=
  selected 0xF023 0xF0FF rfl rfl (by decide) (free1 (by decide))

theorem putsp (pad : BitVec 4) : Statement (.putsp pad) :=
  selected 0xF024 0xF0FF rfl rfl (by decide) (free1 (by decide))

theorem halt (pad : BitVec 4) : Statement (.halt pad) :=
  selected 0xF025 0xF0FF rfl rfl (by decide) (free1 (by decide))

theorem ret (padHi : BitVec 3) (padLo : BitVec 6) : Statement (.ret padHi padLo) :=
  selected 0xC1C0 0xF1C0 rfl rfl (by decide) (free2 (by decide) (by decide))

theorem nop (off : BitVec 9) : Statement (.nop off) :=
  selected 0x0000 0xFE00 rfl rfl (by decide) (free1 (by decide))

end Sys2Proof.Laws.EncodedRow
end

