-- ==== Sys2Proof/Laws/Strings.lean ====
section
/-! SUPPORT. What the two string loops do (spec/43_trap_system.md R122, R126, R128): over a terminated string, the bytes
they send and the words they read; and when they never end. -/

namespace Sys2Proof.Machine

/-- The state after a sink with room took the bytes `bs`. -/
def State.sent (s : State) (bs : List Byte) : State :=
  { s with output := s.output ++ asOutput bs, sinkRoom := s.roomAfter bs.length }

theorem State.sent_sent (s : State) (bs cs : List Byte) : (s.sent bs).sent cs = s.sent (bs ++ cs) := by
  simp [State.sent, asOutput, State.roomAfter]
  congr 1; funext n; simp [Nat.sub_sub]

theorem State.sent_nil (s : State) : s.sent [] = s := by
  cases h : s.sinkRoom <;> simp [State.sent, asOutput, State.roomAfter, h] <;> rw [← h]

/-- A sink that takes the whole takes the parts. -/
theorem State.sinkTakes_append {s : State} {bs cs : List Byte} (h : s.sinkTakes (bs ++ cs).length) :
    s.sinkTakes bs.length ∧ (s.sent bs).sinkTakes cs.length := by
  simp at h
  rcases h with h | ⟨m, h, hm⟩
  · exact ⟨.inl h, .inl (by simp [State.sent, State.roomAfter, h])⟩
  · exact ⟨.inr ⟨m, h, by omega⟩, .inr ⟨m - bs.length, by simp [State.sent, State.roomAfter, h], by omega⟩⟩

/-- A list of reads from `a` on is the read of `a` and the reads from `a + 1` on. -/
theorem reads_succ (a : Word) (n : Nat) :
    (List.range (n + 1)).map (fun k => Access.read (a + BitVec.ofNat 16 k)) =
      .read a :: (List.range n).map (fun k => Access.read (a + 1 + BitVec.ofNat 16 k)) := by
  rw [List.range_succ_eq_map]
  simp only [List.map_cons, List.map_map, add_one_add_ofNat, List.cons.injEq]
  exact ⟨by simp, List.map_congr_left fun k _ => rfl⟩

/-- The state after a sink took the bytes `bs` and failed at the next (R142). -/
def State.cutOff (s : State) (bs : List Byte) : State :=
  raise .hostIOFailure { s with output := s.output ++ asOutput bs, sinkRoom := some 0 }

/-- A part that is taken, then a part that is cut off. -/
theorem State.sent_cutOff (s : State) {bs : List Byte} (cs : List Byte) {n : Nat} (h : bs.length ≤ n) :
    (s.sent bs).cutOff (cs.take (n - bs.length)) = s.cutOff ((bs ++ cs).take n) := by
  simp [State.cutOff, State.sent, asOutput, List.take_append, List.take_of_length_le h]

/-- The sink's room after a part that is taken. -/
theorem State.sent_sinkRoom {s : State} {n : Nat} (h : s.sinkRoom = some n) (bs : List Byte) :
    (s.sent bs).sinkRoom = some (n - bs.length) := by simp [State.sent, State.roomAfter, h]

/-- What a service that only sends leaves when it is cut off after its link write: R142, the output column. -/
theorem State.cutOff_trapFrame (s : State) (bs : List Byte) : TrapFrame [] s ((link s).cutOff bs) where
  linked := link_x_seven s
  regs := link_regsSameBut s
  pc := rfl
  memory _ := rfl
  cfg := rfl

/-! ### PUTS (R126) -/

/-- Over a terminated string, with a sink that takes its bytes. -/
theorem putsLoop_done (chars : List Word) : ∀ (fuel : Nat) (a : Word) (s : State), chars.length < fuel →
    (∀ k (h : k < chars.length), s.memRead (a + BitVec.ofNat 16 k) = chars[k] ∧ chars[k] ≠ 0) →
    s.memRead (a + BitVec.ofNat 16 chars.length) = 0 → s.sinkTakes (chars.flatMap putsChar).length →
    putsLoop fuel a s = .done (s.sent (chars.flatMap putsChar)) ∧
      putsReads fuel a s = (List.range (chars.length + 1)).map (fun k => .read (a + BitVec.ofNat 16 k)) := by
  induction chars with
  | nil =>
    intro fuel a s hf _ hz _
    obtain ⟨f, rfl⟩ : ∃ f, fuel = f + 1 := ⟨fuel - 1, by simp at hf; omega⟩
    have hz' : s.memRead a = 0#16 := by simpa using hz
    simp [putsLoop, putsReads, hz', State.sent_nil]
  | cons c cs ih =>
    intro fuel a s hf hc hz hs
    obtain ⟨f, rfl⟩ : ∃ f, fuel = f + 1 := ⟨fuel - 1, by simp at hf; omega⟩
    obtain ⟨h0, h1⟩ := hc 0 (by simp)
    simp at h0 h1
    rw [List.flatMap_cons] at hs
    obtain ⟨k1, k2⟩ := State.sinkTakes_append hs
    have e : hostOutAll (putsChar c) s = .done (s.sent (putsChar c)) := hostOutAll_done _ s k1
    obtain ⟨i1, i2⟩ := ih f (a + 1) (s.sent (putsChar c)) (by simpa using hf)
      (fun k hk => by rw [add_one_add_ofNat]; exact hc (k + 1) (by simpa using hk))
      (by rw [add_one_add_ofNat]; exact hz) k2
    constructor
    · simp only [putsLoop, h0]
      rw [if_neg h1, e, Flow.andThen_done, i1, State.sent_sent]; rfl
    · simp only [putsReads, h0]
      rw [if_neg h1, e]
      simp only [i2]
      exact (reads_succ a _).symm

/-- The sink fails inside the bytes of the character at `j`: what it took, and the reads, which end with that word. -/
theorem putsLoop_raised : ∀ (j : Nat) (chars : List Word) (fuel : Nat) (a : Word) (s : State) (n : Nat), j < fuel →
    (∀ k (h : k < chars.length), s.memRead (a + BitVec.ofNat 16 k) = chars[k] ∧ chars[k] ≠ 0) →
    s.sinkRoom = some n → ((chars.take j).flatMap putsChar).length ≤ n →
    n < ((chars.take (j + 1)).flatMap putsChar).length →
    putsLoop fuel a s = .raised (s.cutOff ((chars.flatMap putsChar).take n)) ∧
      putsReads fuel a s = (List.range (j + 1)).map (fun k => .read (a + BitVec.ofNat 16 k)) := by
  intro j
  induction j with
  | zero =>
    intro chars fuel a s n hf hc hs _ hn
    obtain ⟨f, rfl⟩ : ∃ f, fuel = f + 1 := ⟨fuel - 1, by omega⟩
    cases chars with
    | nil => simp at hn
    | cons c cs =>
      obtain ⟨h0, h1⟩ := hc 0 (by simp)
      simp at h0 h1 hn
      have e : hostOutAll (putsChar c) s = .raised (s.cutOff ((putsChar c).take n)) := hostOutAll_raised _ s n hs hn
      rw [List.flatMap_cons, List.take_append_of_le_length (by omega)]
      constructor
      · simp only [putsLoop, h0]; rw [if_neg h1, e]; rfl
      · simp only [putsReads, h0]; rw [if_neg h1, e]; simp
  | succ j ih =>
    intro chars fuel a s n hf hc hs hle hn
    obtain ⟨f, rfl⟩ : ∃ f, fuel = f + 1 := ⟨fuel - 1, by omega⟩
    cases chars with
    | nil => simp at hn
    | cons c cs =>
      obtain ⟨h0, h1⟩ := hc 0 (by simp)
      simp only [List.take_succ_cons, List.flatMap_cons, List.length_append] at hle hn
      simp at h0 h1
      have hlen : (putsChar c).length ≤ n := by omega
      have e : hostOutAll (putsChar c) s = .done (s.sent (putsChar c)) := hostOutAll_done _ s (.inr ⟨n, hs, hlen⟩)
      obtain ⟨i1, i2⟩ := ih cs f (a + 1) (s.sent (putsChar c)) (n - (putsChar c).length) (by omega)
        (fun k hk => by rw [add_one_add_ofNat]; exact hc (k + 1) (by simpa using hk))
        (State.sent_sinkRoom hs _) (by omega) (by omega)
      constructor
      · simp only [putsLoop, h0]
        rw [if_neg h1, e, Flow.andThen_done, i1, State.sent_cutOff _ _ hlen]; rfl
      · simp only [putsReads, h0]
        rw [if_neg h1, e]
        simp only [i2]
        exact (reads_succ a _).symm

/-- Where more bytes are to be sent than the sink takes, one character holds the byte it fails at. -/
theorem exists_failing_char {n : Nat} : ∀ (chars : List Word), n < (chars.flatMap putsChar).length →
    ∃ j, ((chars.take j).flatMap putsChar).length ≤ n ∧ n < ((chars.take (j + 1)).flatMap putsChar).length := by
  intro chars h
  have hP : ∃ j, n < ((chars.take j).flatMap putsChar).length := ⟨chars.length, by simpa using h⟩
  have h0 : Nat.find hP ≠ 0 := fun e => by have := Nat.find_spec hP; rw [e] at this; simp at this
  obtain ⟨j, hj⟩ := Nat.exists_eq_succ_of_ne_zero h0
  exact ⟨j, Nat.le_of_not_lt (Nat.find_min hP (by omega)), by rw [← Nat.succ_eq_add_one, ← hj]; exact Nat.find_spec hP⟩

/-- A count that never falls, and that at `j` and at each place a whole number of rounds before it grows, is at least the
number of whole rounds that fit before `j`. -/
theorem rounds_le_of_growth {L : Nat → Nat} {j r : Nat} (hr : 0 < r) (mono : ∀ k l, k ≤ l → L k ≤ L l)
    (grows : ∀ i, i * r ≤ j → L (j - i * r) < L (j - i * r + 1)) : ∀ m, m * r ≤ j → m ≤ L j - L (j - m * r) := by
  intro m
  induction m with
  | zero => exact fun _ => Nat.zero_le _
  | succ m ih =>
    intro hm
    have e : (m + 1) * r = m * r + r := Nat.succ_mul m r
    have h0 := ih (by omega)
    have h1 := grows (m + 1) hm
    have h2 := mono (j - m * r) j (Nat.sub_le _ _)
    have h3 := mono (j - (m + 1) * r + 1) (j - m * r) (by omega)
    omega

/-- The rounds allowed reach the character at which the sink fails: a character that sends something comes round again
after every 65536 words, so `m` whole rounds before it have sent at least `m` bytes (R122). -/
theorem failing_char_within_fuel {chars : List Word} {a : Word} {s : State} {n j : Nat}
    (hc : ∀ k (h : k < chars.length), s.memRead (a + BitVec.ofNat 16 k) = chars[k] ∧ chars[k] ≠ 0)
    (hs : s.sinkRoom = some n) (hle : ((chars.take j).flatMap putsChar).length ≤ n)
    (hn : n < ((chars.take (j + 1)).flatMap putsChar).length) : j < s.stringFuel := by
  have hj : j < chars.length := by
    by_contra h
    rw [List.take_of_length_le (by omega)] at hle hn
    omega
  obtain ⟨L, hL⟩ : ∃ L : Nat → Nat, ∀ k, ((chars.take k).flatMap putsChar).length = L k := ⟨_, fun _ => rfl⟩
  have grow : ∀ k (h : k < chars.length), L (k + 1) = L k + (putsChar chars[k]).length := fun k h => by
    rw [← hL, ← hL, List.take_succ_eq_append_getElem h, List.flatMap_append, List.length_append, List.flatMap_singleton]
  have mono : ∀ k l, k ≤ l → L k ≤ L l := by
    intro k l h
    rw [← hL, ← hL, show chars.take k = (chars.take l).take k by rw [List.take_take, Nat.min_eq_left h]]
    conv_rhs => rw [← List.take_append_drop k (chars.take l), List.flatMap_append, List.length_append]
    exact Nat.le_add_right _ _
  rw [hL] at hle hn
  have sends : 0 < (putsChar chars[j]).length := by have := grow j hj; omega
  have same : ∀ i, i * 65536 ≤ j → ∃ h : j - i * 65536 < chars.length, chars[j - i * 65536] = chars[j] := fun i hi => by
    refine ⟨by omega, ?_⟩
    rw [← (hc _ _).1, ← (hc j hj).1]
    congr 2
    apply BitVec.eq_of_toNat_eq; simp; omega
  have rounds := rounds_le_of_growth (r := 65536) (by decide) mono (fun i hi => by
    obtain ⟨h, e⟩ := same i hi
    rw [grow _ h, e]; exact Nat.lt_add_of_pos_right sends) (j / 65536) (Nat.div_mul_le_self _ _)
  show j < (match s.sinkRoom with | none => 65536 | some n => 65536 * (n + 1))
  rw [hs]
  show j < 65536 * (n + 1)
  omega

/-- A loop that runs out of rounds met no zero word in them. -/
theorem putsLoop_endless (fuel : Nat) : ∀ (a : Word) (s : State), putsLoop fuel a s = .endless →
    ∀ k < fuel, s.memRead (a + BitVec.ofNat 16 k) ≠ 0#16 := by
  induction fuel with
  | zero => intro a s _ k hk; omega
  | succ n ih =>
    intro a s h k hk
    unfold putsLoop at h
    split at h
    · cases h
    · rename_i hne
      cases k with
      | zero => simpa using hne
      | succ k =>
        have hs := hostOutAll_sent (putsChar (s.memRead a)) s
        rcases hostOutAll_ends (putsChar (s.memRead a)) s with ⟨t, e, _⟩ | ⟨t, e, _⟩
        · rw [e] at h hs
          rw [← add_one_add_ofNat, ← State.memRead_eq_of_mem hs.mem]; exact ih _ _ h k (by omega)
        · rw [e] at h; cases h

/-- Without a zero word, and with a sink that never fails, the loop runs out of rounds. -/
theorem putsLoop_without_terminator (fuel : Nat) : ∀ (a : Word) (s : State), s.sinkRoom = none →
    (∀ b, s.memRead b ≠ 0#16) → putsLoop fuel a s = .endless := by
  induction fuel with
  | zero => intros; rfl
  | succ n ih =>
    intro a s hn h
    unfold putsLoop
    rw [if_neg (h a), hostOutAll_done _ s (.inl hn)]
    exact ih _ _ (by simp [State.roomAfter, hn]) h

/-! ### PUTSP (R128) -/

/-- Byte `k` of the packed string at `a`: low, high, low, high (R128). -/
def State.packedByte (s : State) (a : Word) (k : Nat) : Byte :=
  let w := s.memRead (a + BitVec.ofNat 16 (k / 2))
  if k % 2 = 0 then lowByte w else highByte w

theorem State.packedByte_zero (s : State) (a : Word) : s.packedByte a 0 = lowByte (s.memRead a) := by
  simp [State.packedByte]

theorem State.packedByte_one (s : State) (a : Word) : s.packedByte a 1 = highByte (s.memRead a) := by
  simp [State.packedByte]

theorem State.packedByte_next (s : State) (a : Word) (k : Nat) : s.packedByte (a + 1) k = s.packedByte a (k + 2) := by
  simp only [State.packedByte, add_one_add_ofNat]
  rw [show (k + 2) / 2 = k / 2 + 1 by omega, show (k + 2) % 2 = k % 2 by omega]

/-- Over a terminated string, with a sink that takes its bytes. -/
theorem putspLoop_done : ∀ (n : Nat) (bytes : List Byte), bytes.length ≤ n → ∀ (fuel : Nat) (a : Word) (s : State),
    bytes.length / 2 < fuel → (∀ k (h : k < bytes.length), s.packedByte a k = bytes[k] ∧ bytes[k] ≠ 0) →
    s.packedByte a bytes.length = 0 → s.sinkTakes bytes.length →
    putspLoop fuel a s = .done (s.sent bytes) ∧
      putspReads fuel a s = (List.range (bytes.length / 2 + 1)).map (fun k => .read (a + BitVec.ofNat 16 k)) := by
  have base : ∀ (fuel : Nat) (a : Word) (s : State), 0 < fuel → s.packedByte a 0 = 0 →
      putspLoop fuel a s = .done (s.sent []) ∧
        putspReads fuel a s = (List.range 1).map (fun k => .read (a + BitVec.ofNat 16 k)) := by
    intro fuel a s hf hz
    obtain ⟨f, rfl⟩ : ∃ f, fuel = f + 1 := ⟨fuel - 1, by omega⟩
    have hz' : lowByte (s.memRead a) = 0#8 := by rw [← State.packedByte_zero]; exact hz
    simp [putspLoop, putspReads, hz', State.sent_nil]
  intro n
  induction n with
  | zero =>
    intro bytes hb fuel a s hf _ hz _
    obtain rfl : bytes = [] := List.length_eq_zero_iff.mp (by omega)
    exact base fuel a s hf hz
  | succ n ih =>
    intro bytes hb fuel a s hf hc hz hs
    match bytes, hb, hf, hc, hz, hs with
    | [], _, hf, _, hz, _ => exact base fuel a s hf hz
    | [b], _, hf, hc, hz, hs =>
      obtain ⟨f, rfl⟩ : ∃ f, fuel = f + 1 := ⟨fuel - 1, by simp at hf; omega⟩
      have hz' : highByte (s.memRead a) = 0#8 := by rw [← State.packedByte_one]; exact hz
      obtain ⟨h0, h1⟩ := hc 0 (by simp)
      rw [State.packedByte_zero] at h0
      simp at h0 h1
      have e : hostOut b s = .done (s.sent [b]) := hostOut_done b hs
      simp [putspLoop, putspReads, hz', h0, h1, e]
    | b :: c :: rest, hb, hf, hc, hz, hs =>
      obtain ⟨f, rfl⟩ : ∃ f, fuel = f + 1 := ⟨fuel - 1, by omega⟩
      obtain ⟨h0, h1⟩ := hc 0 (by simp)
      obtain ⟨g0, g1⟩ := hc 1 (by simp)
      rw [State.packedByte_zero] at h0; rw [State.packedByte_one] at g0
      simp at h0 h1 g0 g1
      obtain ⟨k1, k2⟩ := State.sinkTakes_append (bs := [b, c]) (cs := rest) (s := s) hs
      obtain ⟨l1, l2⟩ := State.sinkTakes_append (bs := [b]) (cs := [c]) (s := s) k1
      have eb : hostOut b s = .done (s.sent [b]) := hostOut_done b l1
      have ec : hostOut c (s.sent [b]) = .done (s.sent [b, c]) :=
        (hostOut_done c l2).trans (congrArg Flow.done (State.sent_sent s [b] [c]))
      obtain ⟨i1, i2⟩ := ih rest (by simp at hb; omega) f (a + 1) (s.sent [b, c]) (by simp at hf; omega)
        (fun k hk => by rw [State.packedByte_next]; exact hc (k + 2) (by simpa using hk))
        (by rw [State.packedByte_next]; exact hz) k2
      constructor
      · simp only [putspLoop, h0, g0]
        rw [if_neg h1, eb, Flow.andThen_done, if_neg g1, ec, Flow.andThen_done, i1, State.sent_sent]; rfl
      · have e : hostOutAll [b, c] s = .done (s.sent [b, c]) := hostOutAll_done _ s k1
        simp only [putspReads, h0, g0]
        rw [if_neg (by simp [h1, g1]), e]
        simp only [i2]
        rw [show (b :: c :: rest).length / 2 + 1 = (rest.length / 2 + 1) + 1 by simp; omega]
        exact (reads_succ a _).symm

/-- The sink fails at byte `n` of the string: what it took, and the reads, which end with that byte's word. -/
theorem putspLoop_raised : ∀ (j : Nat) (bytes : List Byte) (fuel : Nat) (a : Word) (s : State) (n : Nat), n / 2 = j →
    j < fuel → (∀ k (h : k < bytes.length), s.packedByte a k = bytes[k] ∧ bytes[k] ≠ 0) → s.sinkRoom = some n →
    n < bytes.length →
    putspLoop fuel a s = .raised (s.cutOff (bytes.take n)) ∧
      putspReads fuel a s = (List.range (j + 1)).map (fun k => .read (a + BitVec.ofNat 16 k)) := by
  intro j
  induction j with
  | zero =>
    intro bytes fuel a s n hj hf hc hs hn
    obtain ⟨f, rfl⟩ : ∃ f, fuel = f + 1 := ⟨fuel - 1, by omega⟩
    obtain ⟨h0, h1⟩ := hc 0 (by omega)
    rw [State.packedByte_zero] at h0
    rw [← h0] at h1
    replace h1 : lowByte (s.memRead a) ≠ 0#8 := h1
    obtain rfl | rfl : n = 0 ∨ n = 1 := by omega
    · have e : ∀ b, hostOut b s = .raised (s.cutOff []) := fun b => (hostOut_raised b hs).trans (by
        simp [State.cutOff, asOutput, ← hs])
      constructor
      · simp only [putspLoop]; rw [if_neg h1, e]; rfl
      · simp only [putspReads]; simp [hostOutAll, e]
    · obtain ⟨g0, g1⟩ := hc 1 hn
      rw [State.packedByte_one] at g0
      rw [← g0] at g1
      replace g1 : highByte (s.memRead a) ≠ 0#8 := g1
      have e : hostOut (lowByte (s.memRead a)) s = .done (s.sent [lowByte (s.memRead a)]) :=
        hostOut_done _ (.inr ⟨1, hs, le_rfl⟩)
      have e' : hostOut (highByte (s.memRead a)) (s.sent [lowByte (s.memRead a)]) =
          .raised (s.cutOff [lowByte (s.memRead a)]) :=
        (hostOut_raised _ (State.sent_sinkRoom hs _)).trans (by simp [State.cutOff, State.sent, State.roomAfter, hs])
      have ht : bytes.take 1 = [lowByte (s.memRead a)] := by
        rw [h0]; cases bytes with
        | nil => simp at hn
        | cons b bs => simp
      rw [ht]
      constructor
      · simp only [putspLoop]; rw [if_neg h1, e, Flow.andThen_done, if_neg g1, e']; rfl
      · simp only [putspReads]; simp [hostOutAll, e, e']
  | succ j ih =>
    intro bytes fuel a s n hj hf hc hs hn
    obtain ⟨f, rfl⟩ : ∃ f, fuel = f + 1 := ⟨fuel - 1, by omega⟩
    match bytes, hc, hn with
    | [], _, hn => simp at hn
    | [_], _, hn => simp at hn; omega
    | b :: c :: rest, hc, hn =>
      obtain ⟨h0, h1⟩ := hc 0 (by simp)
      obtain ⟨g0, g1⟩ := hc 1 (by simp)
      rw [State.packedByte_zero] at h0; rw [State.packedByte_one] at g0
      simp at h0 h1 g0 g1
      obtain ⟨l1, l2⟩ := State.sinkTakes_append (bs := [b]) (cs := [c]) (s := s) (.inr ⟨n, hs, by simp; omega⟩)
      have eb : hostOut b s = .done (s.sent [b]) := hostOut_done b l1
      have ec : hostOut c (s.sent [b]) = .done (s.sent [b, c]) :=
        (hostOut_done c l2).trans (congrArg Flow.done (State.sent_sent s [b] [c]))
      obtain ⟨i1, i2⟩ := ih rest f (a + 1) (s.sent [b, c]) (n - 2) (by omega) (by omega)
        (fun k hk => by rw [State.packedByte_next]; exact hc (k + 2) (by simpa using hk))
        (State.sent_sinkRoom hs _) (by simp at hn; omega)
      constructor
      · simp only [putspLoop, h0, g0]
        rw [if_neg h1, eb, Flow.andThen_done, if_neg g1, ec, Flow.andThen_done, i1]
        exact congrArg Flow.raised (State.sent_cutOff s (bs := [b, c]) rest (by simp; omega))
      · simp only [putspReads, h0, g0]
        rw [if_neg (by simp [h1, g1]), show hostOutAll [b, c] s = .done (s.sent [b, c]) by simp [hostOutAll, eb, ec]]
        simp only [i2]
        exact (reads_succ a _).symm

/-- A loop that runs out of rounds met no zero byte in them. -/
theorem putspLoop_endless (fuel : Nat) : ∀ (a : Word) (s : State), putspLoop fuel a s = .endless →
    ∀ k < fuel, lowByte (s.memRead (a + BitVec.ofNat 16 k)) ≠ 0#8 ∧
      highByte (s.memRead (a + BitVec.ofNat 16 k)) ≠ 0#8 := by
  induction fuel with
  | zero => intro a s _ k hk; omega
  | succ n ih =>
    intro a s h k hk
    unfold putspLoop at h
    split at h
    · cases h
    · rename_i hlo
      have hs := hostOut_sent (lowByte (s.memRead a)) s
      rcases hostOut_ends (lowByte (s.memRead a)) s with ⟨t, e, _⟩ | ⟨t, e, _⟩ <;> rw [e] at h hs
      · simp only [Flow.andThen_done] at h
        split at h
        · cases h
        · rename_i hhi
          have ht := hostOut_sent (highByte (s.memRead a)) t
          rcases hostOut_ends (highByte (s.memRead a)) t with ⟨u, f, _⟩ | ⟨u, f, _⟩ <;> rw [f] at h ht
          · simp only [Flow.andThen_done] at h
            cases k with
            | zero => exact ⟨by simpa using hlo, by simpa using hhi⟩
            | succ k =>
              rw [← add_one_add_ofNat, ← State.memRead_eq_of_mem (Sent.trans hs ht).mem]
              exact ih _ _ h k (by omega)
          · cases h
      · cases h

/-- Without a zero byte, and with a sink that never fails, the loop runs out of rounds. -/
theorem putspLoop_without_terminator (fuel : Nat) : ∀ (a : Word) (s : State), s.sinkRoom = none →
    (∀ b, lowByte (s.memRead b) ≠ 0#8 ∧ highByte (s.memRead b) ≠ 0#8) → putspLoop fuel a s = .endless := by
  induction fuel with
  | zero => intros; rfl
  | succ n ih =>
    intro a s hn h
    unfold putspLoop
    rw [if_neg (h a).1, hostOut_done _ (.inl hn), Flow.andThen_done, if_neg (h a).2,
      hostOut_done _ (.inl (by simp [State.roomAfter, hn])), Flow.andThen_done]
    exact ih _ _ (by simp [State.roomAfter, hn]) h

/-- A round of the address space visits every address. -/
theorem every_address {P : Word → Prop} {a : Word} {n : Nat} (hn : 65536 ≤ n)
    (h : ∀ k < n, P (a + BitVec.ofNat 16 k)) : ∀ b, P b := by
  intro b
  have hb := h (b - a).toNat (by have := (b - a).isLt; omega)
  have e : a + BitVec.ofNat 16 (b - a).toNat = b := by
    apply BitVec.eq_of_toNat_eq; simp [BitVec.toNat_sub]; have := b.isLt; have := a.isLt; omega
  rwa [e] at hb

end Sys2Proof.Machine
end

