-- ==== Sys2Proof/Tests/Slice0.lean ====
section
/-! SUPPORT. The model's own tests: well-formedness, decoding of words written out from the spec's rows, one-step tests
whose expected values are the spec's worked examples and vectors (spec/95_test_vectors.md sections 1 and 2), and for each
statement with hypotheses a state that meets them. -/

namespace Sys2Proof.Tests

open Sys2Proof.Machine

/-! ### Small states -/

/-- The reset state with `pc` and the word at `pc`. -/
def at_ (pc w : Word) : State := (State.reset.setPc pc).memWrite pc w

/-- What a step leaves, looked at through `f`. -/
def seen {α : Type} (f : State → α) (s : State) : Option α :=
  match step s with
  | .next t => some (f t)
  | _ => none

/-- A register, the flags and `pc`. -/
def rcp (r : RegSel) (t : State) : Word × Cond × Word := (t.x r, t.cond, t.pc)

/-! ### Well-formedness: one ill-formed term for each check, which the check refuses -/

theorem test_wf_br_without_flags : (Instr.br false false false 5).WellFormed = false := by decide
theorem test_wf_jmp_through_seven : (Instr.jmp 0 7 0).WellFormed = false := by decide
theorem test_wf_trap_with_service_vectors :
    ([0x20, 0x21, 0x22, 0x23, 0x24, 0x25].all fun v => !(Instr.trap 0 v).WellFormed) = true := by decide
theorem test_wf_accepts_the_neighbours :
    (Instr.br false true false 5).WellFormed = true ∧ (Instr.jmp 0 6 0).WellFormed = true ∧
      (Instr.trap 0 0x1F).WellFormed = true ∧ (Instr.trap 0 0x26).WellFormed = true := by decide

/-! ### Decoding: words written from the rows of spec/30_encoding.md R63 and spec/95_test_vectors.md V4 and section 2 -/

theorem test_decode_add : decode 0b0001_010_000_0_00_001 = .addReg 2 0 0 1 ∧
    decode 0b0001_100_101_0_11_110 = .addReg 4 5 3 6 ∧ decode 0b0001_011_011_1_10000 = .addImm 3 3 0b10000 := by decide
theorem test_decode_and : decode 0b0101_010_000_0_00_001 = .andReg 2 0 0 1 ∧
    decode 0b0101_010_000_1_01111 = .andImm 2 0 0b01111 := by decide
theorem test_decode_not : decode 0b1001_001_000_111111 = .not 1 0 0x3F ∧ decode 0x9200 = .not 1 0 0 := by decide
theorem test_decode_br : decode 0b0000_100_000000101 = .br true false false 5 ∧
    decode 0b0000_011_111111110 = .br false true true 0x1FE := by decide
theorem test_decode_nop : decode 0x0000 = .nop 0 ∧ decode 0x0005 = .nop 5 ∧ decode 0x01FF = .nop 0x1FF := by decide
theorem test_decode_jmp : decode 0b1100_000_010_000000 = .jmp 0 2 0 ∧ decode 0xCEBF = .jmp 7 2 0x3F := by decide
theorem test_decode_ret : decode 0b1100_000_111_000000 = .ret 0 0 ∧ decode 0xCFFF = .ret 7 0x3F := by decide
theorem test_decode_jsr : decode 0b0100_1_00100000000 = .jsr 0x100 ∧ decode 0x4FFE = .jsr 0x7FE := by decide
theorem test_decode_jsrr : decode 0b0100_0_00_010_000000 = .jsrr 0 2 0 ∧ decode 0x46BF = .jsrr 3 2 0x3F := by decide
theorem test_decode_ld : decode 0b0010_001_000000010 = .ld 1 2 := by decide
theorem test_decode_ldi : decode 0b1010_010_000000001 = .ldi 2 1 := by decide
theorem test_decode_ldr : decode 0b0110_011_100_111111 = .ldr 3 4 0x3F := by decide
theorem test_decode_lea : decode 0b1110_101_000010000 = .lea 5 0x10 := by decide
theorem test_decode_st : decode 0b0011_001_000000011 = .st 1 3 := by decide
theorem test_decode_sti : decode 0b1011_001_000000001 = .sti 1 1 := by decide
theorem test_decode_str : decode 0b0111_001_010_000101 = .str 1 2 5 ∧ decode 0x72A0 = .str 1 2 0x20 := by decide
theorem test_decode_trap : decode 0b1111_0000_00100110 = .trap 0 0x26 ∧ decode 0xF01F = .trap 0 0x1F ∧
    decode 0xFFFF = .trap 0xF 0xFF := by decide
theorem test_decode_services : decode 0xF020 = .getc 0 ∧ decode 0xF021 = .out 0 ∧ decode 0xF022 = .puts 0 ∧
    decode 0xF023 = .inp 0 ∧ decode 0xF024 = .putsp 0 ∧ decode 0xF025 = .halt 0 ∧ decode 0xFA25 = .halt 0xA := by decide
theorem test_decode_rti : decode 0b1000_000000000000 = .rti 0 ∧ decode 0x8ABC = .rti 0xABC := by decide
theorem test_decode_res : decode 0b1101_000000000000 = .res 0 ∧ decode 0xDFFF = .res 0xFFF := by decide

/-- A row's bits as the host gives them, and the refusal of what is no single word (log 26). -/
theorem test_decode_table_word : decodeTableWord 16 0x1025 = some (.addImm 0 0 5) ∧
    decodeTableWord 4 0x0 = some (.nop 0) ∧ decodeTableWord 32 0x1025 = none ∧ decodeTableWord 16 0x11025 = none := by
  decide

/-- V4: the fields of a word under its format, and the write of a value wider than its field. -/
theorem test_codec : Format.opr.extract 0x195E = [1, 4, 5, 0, 3, 6] ∧ Format.bof.extract 0x72A0 = [7, 1, 2, 0x20] ∧
    Format.opr.assemble [1, 4, 5, 0, 3, 6] = 0x195E ∧ withField 0 5 0x1020 0x25 = 0x1025 := by decide

/-- V1: sign extension. -/
theorem test_sext : sext (0x0F : BitVec 5) = 0x000F ∧ sext (0x10 : BitVec 5) = 0xFFF0 ∧
    sext (0x1F : BitVec 6) = 0x001F ∧ sext (0x20 : BitVec 6) = 0xFFE0 ∧ sext (0x0FF : BitVec 9) = 0x00FF ∧
    sext (0x100 : BitVec 9) = 0xFF00 ∧ sext (0x3FF : BitVec 11) = 0x03FF ∧ sext (0x400 : BitVec 11) = 0xFC00 := by decide

/-- V2: the flag rule. -/
theorem test_condOf : condOf 0x0000 = .Z ∧ condOf 0x0001 = .P ∧ condOf 0x7FFF = .P ∧ condOf 0x8000 = .N ∧
    condOf 0xFFFF = .N := by decide

/-! ### Operate (95_test_vectors.md section 2.1) -/

theorem test_add_wraps :
    seen (rcp 2) (((at_ 0x3000 0x1401).writeReg 0 0xFFFF).writeReg 1 0x0001) = some (0x0000, .Z, 0x3001) := by decide
theorem test_add_same_register :
    seen (rcp 1) ((at_ 0x3000 0x1241).writeReg 1 0x4000) = some (0x8000, .N, 0x3001) := by decide
theorem test_add_most_negative_immediate :
    seen (rcp 3) ((at_ 0x3000 0x16F0).writeReg 3 0x0010) = some (0x0000, .Z, 0x3001) := by decide
theorem test_add_sets_flags_at_top_of_memory :
    seen (rcp 0) ((at_ 0xFFFF 0x1020).setCond .N) = some (0x0000, .Z, 0x0000) := by decide
theorem test_and_register :
    seen (rcp 2) (((at_ 0x3000 0x5401).writeReg 0 0xF0F0).writeReg 1 0xFF00) = some (0xF000, .N, 0x3001) := by decide
theorem test_and_sign_extends :
    seen (rcp 2) ((at_ 0x3000 0x5430).writeReg 0 0xABCD) = some (0xABC0, .N, 0x3001) := by decide
theorem test_not_complements :
    seen (rcp 1) ((at_ 0x3000 0x923F).writeReg 0 0x8000) = some (0x7FFF, .P, 0x3001) := by decide
theorem test_not_ignores_pad :
    seen (rcp 1) ((at_ 0x3000 0x9200).writeReg 0 0x5555) = some (0xAAAA, .N, 0x3001) := by decide

/-! ### Control (section 2.2) -/

theorem test_br_not_taken : seen State.pc ((at_ 0x3000 0x0805).setCond .P) = some 0x3001 := by decide
theorem test_br_taken_wraps : seen State.pc (at_ 0xFFFF 0x0E01) = some 0x0001 := by decide
theorem test_nop_never_branches : seen (rcp 0) ((at_ 0x3000 0x0005).setCond .Z) = some (0, .Z, 0x3001) := by decide
theorem test_jmp : seen (rcp 7) ((at_ 0x3000 0xC080).writeReg 2 0x4000) = some (0x0000, .Z, 0x4000) := by decide
theorem test_ret : seen State.pc ((at_ 0x3000 0xC1C0).writeReg 7 0x3456) = some 0x3456 := by decide
theorem test_jsr_most_negative : seen (rcp 7) (at_ 0x3000 0x4C00) = some (0x3001, .Z, 0x2C01) := by decide
theorem test_jsr_wraps : seen (rcp 7) (at_ 0x0000 0x4FFE) = some (0x0001, .Z, 0xFFFF) := by decide
theorem test_jsrr : seen (rcp 7) ((at_ 0x3000 0x4080).writeReg 2 0x5000) = some (0x3001, .Z, 0x5000) := by decide
theorem test_jsrr_seven_falls_through :
    seen (rcp 7) ((at_ 0x3000 0x41C0).writeReg 7 0x5000) = some (0x3001, .Z, 0x3001) := by decide

/-! ### Loads, LEA, stores (sections 2.3, 2.4) -/

theorem test_ld : seen (rcp 1) ((at_ 0x3000 0x2202).memWrite 0x3003 0x8001) = some (0x8001, .N, 0x3001) := by decide
theorem test_ld_wraps : seen (rcp 1) ((at_ 0x0000 0x23FE).memWrite 0xFFFF 0x1234) = some (0x1234, .P, 0x0001) := by decide
theorem test_ldi : seen (rcp 2) (((at_ 0x3000 0xA401).memWrite 0x3002 0x4000).memWrite 0x4000 0xBEEF) =
    some (0xBEEF, .N, 0x3001) := by decide
theorem test_ldr_wraps : seen (rcp 3) (((at_ 0x3000 0x6720).writeReg 4 0x0010).memWrite 0xFFF0 0x9000) =
    some (0x9000, .N, 0x3001) := by decide
theorem test_ldr_base_is_destination :
    seen (rcp 4) ((at_ 0x3000 0x6900).writeReg 4 0x4000) = some (0x0000, .Z, 0x3001) := by decide
theorem test_lea_sets_flags : seen (rcp 5) (at_ 0x7F00 0xEAFF) = some (0x8000, .N, 0x7F01) := by decide
theorem test_lea_wraps : seen (rcp 5) ((at_ 0x00FF 0xEB00).writeReg 5 0x7777) = some (0x0000, .Z, 0x0100) := by decide
theorem test_st_overwrites_itself :
    seen (fun t => (t.memRead 0x3000, t.cond)) ((at_ 0x3000 0x33FF).writeReg 1 0xF025) = some (0xF025, .Z) := by decide
theorem test_sti : seen (fun t => (t.memRead 0x5000, t.memRead 0x3002))
    (((at_ 0x3000 0xB201).writeReg 1 0x1111).memWrite 0x3002 0x5000) = some (0x1111, 0x5000) := by decide
theorem test_str_wraps : seen (fun t => t.memRead 0x001E) (((at_ 0x3000 0x729F).writeReg 1 1).writeReg 2 0xFFFF) =
    some 0x0001 := by decide
/-- A store of what an unlisted word reads as takes the entry out. -/
theorem test_st_keeps_canonical_form :
    seen (fun t => t.mem) ((at_ 0x3000 0x3203).memWrite 0x3004 0xCAFE) = some [(0x3000, 0x3203)] := by decide

/-! ### TRAP and the services (section 2.5) -/

theorem test_getc : seen (rcp 0) (((at_ 0x3000 0xF020).writeReg 0 0xFFFF).setInput [.byte 0xFF]) =
    some (0x00FF, .P, 0x3001) := by decide
theorem test_getc_closed_stream : seen (fun t => (t.x 0, t.x 7, t.cond, t.run))
    ((((at_ 0x3000 0xF020).writeReg 0 0xFFFF).setCond .N).setInput [.failure]) =
    some (0xFFFF, 0x3001, .N, .faulted .hostIOFailure) := by decide
theorem test_out : seen (fun t => (t.output, t.cond, t.x 7)) (((at_ 0x3000 0xF021).writeReg 0 0x1241).setCond .N) =
    some ([.byte 0x41, .flush], .N, 0x3001) := by decide
theorem test_puts_wraps : seen State.outputBytes
    (((((at_ 0x3000 0xF022).writeReg 0 0xFFFF).memWrite 0xFFFF 0x48).memWrite 0x0000 0x69).memWrite 0x0001 0) =
    some [0x48, 0x69] := by decide
theorem test_puts_reads : dataAccesses (.puts 0)
    (((State.reset.writeReg 0 0x4000).memWrite 0x4000 0x41).memWrite 0x4001 0x42) =
    [.read 0x4000, .read 0x4001, .read 0x4002] := by decide
theorem test_in : seen (fun t => (t.x 0, t.cond, t.outputBytes))
    (((at_ 0x3000 0xF023).writeReg 0 0xFFFF).setInput [.byte 0x7A]) =
    some (0x007A, .P, defaultInPrompt ++ [0x7A]) := by decide
theorem test_in_closed_stream : seen (fun t => (t.x 0, t.outputBytes, t.run))
    (((at_ 0x3000 0xF023).writeReg 0 0xFFFF).setInput [.failure]) =
    some (0xFFFF, defaultInPrompt, .faulted .hostIOFailure) := by decide
theorem test_putsp_stops_at_high_byte : seen State.outputBytes
    ((((at_ 0x3000 0xF024).writeReg 0 0x4000).memWrite 0x4000 0x4241).memWrite 0x4001 0x0043) =
    some [0x41, 0x42, 0x43] := by decide
theorem test_putsp_stops_at_low_byte : seen (fun t => (t.outputBytes, t.x 0))
    ((((at_ 0x3000 0xF024).writeReg 0 0x4000).memWrite 0x4000 0x4100).memWrite 0x4001 0x0042) =
    some ([], 0x4000) := by decide
theorem test_halt : seen (fun t => (t.outputBytes, t.run, t.pc, t.x 7)) (at_ 0x3000 0xFA25) =
    some ([0x48, 0x41, 0x4C, 0x54, 0x0A], .halted, 0x3001, 0x3001) := by decide
theorem test_trap_below_the_table : seen (fun t => (t.run, t.x 7, t.pc)) (at_ 0x3000 0xF01F) =
    some (.faulted (.invalidTrapVector 0x1F), 0x3001, 0x3001) := by decide
theorem test_trap_above_the_table : seen (fun t => (t.run, t.output)) (at_ 0x3000 0xF026) =
    some (.faulted (.invalidTrapVector 0x26), []) := by decide
theorem test_rti : seen (fun t => (t.run, t.x 7, t.cond, t.pc)) (((at_ 0x3000 0x8ABC).writeReg 7 0x1234).setCond .P) =
    some (.faulted (.unsupportedInstruction 0x8ABC), 0x1234, .P, 0x3001) := by decide
theorem test_res : seen (fun t => (t.run, t.x 0, t.pc)) ((at_ 0x3000 0xDFFF).writeReg 0 0x1111) =
    some (.faulted (.invalidOpcode 0xDFFF), 0x1111, 0x3001) := by decide

/-! ### The run state, the sink, reset (section 2.8; 10_state.md R25, R26) -/

theorem test_no_step_after_halt : seen (fun t => (t.pc, t.x 0)) ((at_ 0x3000 0x1025).setRun .halted) =
    some (0x3000, 0x0000) := by decide
theorem test_no_step_after_fault : seen (fun t => (t.pc, t.x 0))
    ((at_ 0x3000 0x1025).setRun (.faulted .hostIOFailure)) = some (0x3000, 0x0000) := by decide
theorem test_waiting_getc_goes_on : seen (fun t => (t.x 0, t.pc, t.waiting))
    ((((at_ 0x3001 0x1025).writeReg 7 0x3001).setWaiting (some .getc)).setInput [.byte 0x41]) =
    some (0x0041, 0x3001, none) := by decide
theorem test_failing_sink_keeps_what_it_took : seen (fun t => (t.outputBytes, t.run)) ((at_ 0x3000 0xF025).setSinkRoom (some 2)) =
    some ([0x48, 0x41], .faulted .hostIOFailure) := by decide
theorem test_failing_sink_cuts_puts_off : seen (fun t => (t.output, t.run, t.x 7))
    ((((at_ 0x3000 0xF022).writeReg 0 0x4000).memWrite 0x4000 0x48).memWrite 0x4001 0x69 |>.setSinkRoom (some 1)) =
    some ([.byte 0x48], .faulted .hostIOFailure, 0x3001) := by decide
theorem test_reset_again :
    (((at_ 0x4000 0x1025).setRun .halted).writeReg 3 7).applyReset = (at_ 0x4000 0x1025).setPc 0x3000 := by decide
theorem test_placed_word_runs_first : seen (rcp 0) (State.reset.withFetchWord 16 0x1025) = some (5, .P, 0x3001) := by decide

/-! ### Witnesses: for each statement with hypotheses, something that meets them -/

theorem witness_ResetFromAnyState :
    (State.reset.setRun .halted).GoodEnd ∧ (State.reset.setRun (.faulted (.invalidOpcode 0xD000))).BadEnd :=
  ⟨rfl, ⟨_, rfl⟩⟩

/-- A program of two words that wraps round the top of memory, over a launch content that is not empty. -/
theorem witness_LaunchState : Memory.wf [(0, 7), (5, 8)] = true ∧ [(0x1025 : Word), 0xF025].length ≤ 65536 ∧
    1 < [(0x1025 : Word), 0xF025].length ∧ (∀ k < 2, (5 : Word) ≠ 0xFFFF + BitVec.ofNat 16 k) ∧
    (State.launch defaultConfig [(0, 7), (5, 8)] [] none 0xFFFF [0x1025, 0xF025] (some 0xFFFF)).memRead 0 = 0xF025 := by
  decide

theorem witness_FirstStepOfEndToEndScenario : Memory.wf [(0x3000, 0xFFFF)] = true := by decide

theorem witness_StepFetchesAdvancesExecutes : State.reset.run = .running ∧ State.reset.waiting = none := by decide

theorem witness_PlacedWordIsRunNext : (at_ 0x3000 0xD000).mem.wf = true := by decide

theorem witness_RegisterFileHoldsTheState : Config.flagsDistinct defaultConfig = true ∧
    (State.reset.writeReg 3 9).cfg = State.reset.cfg ∧ (State.reset.writeReg 3 9).condWord = State.reset.condWord := by decide

/-- Each width, at the last non-negative and the first negative value, and a bit on each side of the field's top. -/
theorem witness_SignExtensionIsBitExact : ([5, 6, 9, 11].all fun n => n - 1 < n && n ≤ 15 && 15 < 16) = true ∧
    sextNumber (0x0F : BitVec 5) = 0x000F ∧ sextNumber (0x10 : BitVec 5) = 0xFFF0 ∧
    sextNumber (0x3FF : BitVec 11) = 0x03FF ∧ sextNumber (0x400 : BitVec 11) = 0xFC00 := by decide

theorem witness_FieldWriteReadsBack : 12 + 4 ≤ 16 ∧ (11 < 12 ∨ 12 + 4 ≤ 11) ∧ 0 + 5 ≤ 16 ∧ (5 < 0 ∨ 0 + 5 ≤ 5) := by decide

/-- One well-formed instruction of each of the 27 constructors, pads not canonical. -/
def oneOfEach : List Instr :=
  [.addReg 1 2 3 4, .addImm 1 2 0x1F, .andReg 7 6 1 5, .andImm 0 7 0x10, .not 1 2 0] ++
  [.br true false true 0x1FF, .jmp 7 6 0x3F, .jsr 0x7FF, .jsrr 3 7 0x3F, .ld 1 2, .ldi 1 2, .lea 1 2, .st 1 2] ++
  [.sti 1 2, .ldr 1 2 0x3F, .str 1 2 3, .trap 0xF 0xFF, .rti 0xABC, .res 0xFFF, .getc 1, .out 2, .puts 3, .inp 4] ++
  [.putsp 5, .halt 0xA, .ret 7 0x3F, .nop 0x1FF]

theorem witness_DecodeOfEncodeIsIdentity : (oneOfEach.all fun i => i.WellFormed) = true ∧
    (oneOfEach.all fun i => decide (decode (encode i) = i)) = true := by decide

theorem witness_RowsPartitionTheWords : (Instr.nop 0).row ∈ aliasRows ∧ (Instr.nop 0).row.selects 0x01FF = true ∧
    (Instr.nop 0).row.selects 0x0200 = false := by decide

/-- An instruction with pads, and RTI and the reserved opcode with pads that are not canonical. -/
theorem witness_PadBitsDoNotMatter :
    (∀ p, Instr.not 1 0 0 ≠ .rti p ∧ Instr.not 1 0 0 ≠ .res p) ∧ Instr.not 1 0 0 ≠ (Instr.not 1 0 0).canonical ∧
      encode (.rti 0xABC) ≠ encode (Instr.rti 0xABC).canonical ∧
      encode (.res 0xFFF) ≠ encode (Instr.res 0xFFF).canonical :=
  ⟨by simp, by decide, by decide, by decide⟩

theorem witness_AddRegister : field 12 4 (0x195E : Word) = 1#4 ∧ (0x195E : Word).getLsbD 5 = false := by decide
theorem witness_AddImmediate : field 12 4 (0x1025 : Word) = 1#4 ∧ (0x1025 : Word).getLsbD 5 = true := by decide
theorem witness_AndRegister : field 12 4 (0x5401 : Word) = 5#4 ∧ (0x5401 : Word).getLsbD 5 = false := by decide
theorem witness_AndImmediate : field 12 4 (0x5430 : Word) = 5#4 ∧ (0x5430 : Word).getLsbD 5 = true := by decide
theorem witness_NotComplements : field 12 4 (0x923F : Word) = 9#4 := by decide

/-- Taken for each flag, and not taken. -/
theorem witness_BranchOnFlags : field 12 4 (0x0805 : Word) = 0#4 ∧ (State.reset.setCond .N).cond = .N ∧
    State.reset.cond = .Z ∧ (State.reset.setCond .P).cond = .P ∧
    ¬((true = true ∧ State.reset.cond = .N) ∨ (false = true ∧ State.reset.cond = .Z) ∨
      (true = true ∧ State.reset.cond = .P)) := by decide

theorem witness_BranchTestIsMaskTest :
    State.reset.cfg.flNeg = 4 ∧ State.reset.cfg.flZro = 2 ∧ State.reset.cfg.flPos = 1 := by decide

theorem witness_JumpThroughRegister : field 12 4 (0xC1C0 : Word) = 12#4 := by decide
theorem witness_JsrLinksAndJumps : field 12 4 (0x4FFE : Word) = 4#4 ∧ (0x4FFE : Word).getLsbD 11 = true := by decide
theorem witness_JsrrLinksBeforeItReads : field 12 4 (0x41C0 : Word) = 4#4 ∧ (0x41C0 : Word).getLsbD 11 = false := by decide
theorem witness_LoadPcRelative : field 12 4 (0x2202 : Word) = 2#4 := by decide
theorem witness_LoadIndirect : field 12 4 (0xA401 : Word) = 10#4 := by decide
theorem witness_LoadBasePlusOffset : field 12 4 (0x673F : Word) = 6#4 := by decide
theorem witness_LoadEffectiveAddress : field 12 4 (0xEA10 : Word) = 14#4 := by decide
theorem witness_StorePcRelative : field 12 4 (0x3203 : Word) = 3#4 ∧ (at_ 0x3000 0x3203).mem.wf = true := by decide
theorem witness_StoreIndirect : field 12 4 (0xB201 : Word) = 11#4 ∧ (at_ 0x3000 0xB201).mem.wf = true := by decide
theorem witness_StoreBasePlusOffset : field 12 4 (0x7285 : Word) = 7#4 ∧ (at_ 0x3000 0x7285).mem.wf = true := by decide

theorem witness_MemoryIsItsContent : Memory.wf [(0, 1), (0xFFFF, 2)] = true ∧
    (∀ a, Memory.read [(0, 1), (0xFFFF, 2)] a = Memory.read [(0, 1), (0xFFFF, 2)] a) := ⟨by decide, fun _ => rfl⟩

/-- Each of the three stores, at the address of the next instruction. -/
theorem witness_FetchSeesTheStore :
    ([(at_ 0x3000 0x3200), (at_ 0x3000 0xB201).memWrite 0x3002 0x3001, (at_ 0x3000 0x7280).writeReg 2 0x3001].all fun s =>
      decide (s.run = .running ∧ s.waiting = none ∧ s.mem.wf = true ∧ (decode s.fetch).storeSource = some 1 ∧
        (decode s.fetch).storeAddress s.advance = some (s.pc + 1))) = true := by decide

theorem witness_TrapDispatches : field 12 4 (0xFA26 : Word) = 15#4 ∧ isServiceVector (field 0 8 (0xFA26 : Word)) = false ∧
    isServiceVector 0x1F = false ∧ isServiceVector 0x00 = false ∧ isServiceVector 0xFF = false ∧
    (∃ t, exec (.trap 0 0x21) State.reset = .next t) ∧ (0x21 : BitVec 8) ≠ 0x22#8 ∧ (0x21 : BitVec 8) ≠ 0x24#8 ∧
    (0x21 : BitVec 8) ≠ 0x20#8 ∧ (0x21 : BitVec 8) ≠ 0x23#8 :=
  ⟨by decide, by decide, by decide, by decide, by decide, ⟨_, rfl⟩, by decide, by decide, by decide, by decide⟩

/-- A byte, and a failed stream. -/
theorem witness_GetcReadsOneByte : field 12 4 (0xFA20 : Word) = 15#4 ∧ field 0 8 (0xFA20 : Word) = 0x20#8 ∧
    (State.reset.setInput [.byte 0, .notYet]).input = .byte 0 :: [.notYet] ∧
    (State.reset.setInput [.failure]).input = .failure :: [] := by decide

/-- A sink that never fails, one with room for exactly one byte, one with no room. -/
theorem witness_OutSendsTheLowByte : field 12 4 (0xF021 : Word) = 15#4 ∧ field 0 8 (0xF021 : Word) = 0x21#8 ∧
    State.reset.sinkTakes 1 ∧ (State.reset.setSinkRoom (some 1)).sinkTakes 1 ∧
    (State.reset.setSinkRoom (some 0)).sinkRoom = some 0 :=
  ⟨by decide, by decide, .inl rfl, .inr ⟨1, rfl, le_rfl⟩, rfl⟩

/-- "Hi" from the last word of memory on, wrapping; the empty string; and a sink that fails at the first byte, and at the
last. -/
theorem witness_PutsSendsTheString : field 12 4 (0xF022 : Word) = 15#4 ∧ field 0 8 (0xF022 : Word) = 0x22#8 ∧
    let s := ((State.reset.writeReg 0 0xFFFF).memWrite 0xFFFF 0x48).memWrite 0x0000 0x69
    let bytesOf := fun ws : List Word => ws.flatMap fun w =>
      if w.toNat ≤ 0x00FF then [BitVec.ofNat 8 w.toNat] else Config.putsWide w
    (∀ k (h : k < [(0x48 : Word), 0x69].length),
      s.memRead (s.x 0#3 + BitVec.ofNat 16 k) = [(0x48 : Word), 0x69][k] ∧ [(0x48 : Word), 0x69][k] ≠ 0) ∧
    s.memRead (s.x 0#3 + BitVec.ofNat 16 2) = 0 ∧ (bytesOf [0x48, 0x69]).length = 2 ∧ s.sinkTakes 2 ∧
    State.reset.memRead (State.reset.x 0#3) = 0 ∧
    ∀ k < 2, (s.setSinkRoom (some k)).sinkRoom = some k ∧ (bytesOf ([0x48, 0x69].take k)).length ≤ k ∧
      k < (bytesOf ([0x48, 0x69].take (k + 1))).length ∧ k < (bytesOf [0x48, 0x69]).length :=
  ⟨by decide, by decide, by decide, by decide, by decide, .inl rfl, by decide, by decide⟩

/-- Each of the four ways: echoed, echo not taken, failed read, prompt not taken. -/
theorem witness_InPromptsReadsEchoes : field 12 4 (0xF023 : Word) = 15#4 ∧ field 0 8 (0xF023 : Word) = 0x23#8 ∧
    ((State.reset.setInput [.byte 0x7A]).setSinkRoom (some 20)).sinkTakes (defaultInPrompt.length + 1) ∧
    ((State.reset.setInput [.byte 0x7A]).setSinkRoom (some 19)).sinkRoom = some defaultInPrompt.length ∧
    ((State.reset.setInput [.failure]).setSinkRoom (some 19)).sinkTakes defaultInPrompt.length ∧
    (State.reset.setSinkRoom (some 18)).sinkRoom = some 18 ∧ 18 < defaultInPrompt.length :=
  ⟨by decide, by decide, .inr ⟨20, rfl, by decide⟩, rfl, .inr ⟨19, rfl, by decide⟩, rfl, by decide⟩

/-- "ABC": three bytes, the terminator in the high half of the second word; and a sink that fails at each byte. -/
theorem witness_PutspSendsTheString : field 12 4 (0xF024 : Word) = 15#4 ∧ field 0 8 (0xF024 : Word) = 0x24#8 ∧
    let s := ((State.reset.writeReg 0 0x4000).memWrite 0x4000 0x4241).memWrite 0x4001 0x0043
    let byteAt := fun k : Nat =>
      let w := s.memRead (s.x 0#3 + BitVec.ofNat 16 (k / 2))
      BitVec.ofNat 8 (if k % 2 = 0 then w.toNat % 256 else w.toNat / 256)
    (∀ k (h : k < [(0x41 : Byte), 0x42, 0x43].length),
      byteAt k = [(0x41 : Byte), 0x42, 0x43][k] ∧ [(0x41 : Byte), 0x42, 0x43][k] ≠ 0) ∧
    byteAt 3 = 0 ∧ s.sinkTakes 3 ∧
    ∀ n < 3, (s.setSinkRoom (some n)).sinkRoom = some n ∧ n < [(0x41 : Byte), 0x42, 0x43].length :=
  ⟨by decide, by decide, by decide, by decide, .inl rfl, fun n h => ⟨rfl, h⟩⟩

theorem witness_HaltNotifiesAndStops : field 12 4 (0xFA25 : Word) = 15#4 ∧ field 0 8 (0xFA25 : Word) = 0x25#8 ∧
    (State.reset.setSinkRoom (some 5)).sinkTakes defaultHaltNotice.length ∧
    (State.reset.setSinkRoom (some 4)).sinkRoom = some 4 ∧ 4 < defaultHaltNotice.length :=
  ⟨by decide, by decide, .inr ⟨5, rfl, by decide⟩, rfl, by decide⟩

theorem witness_RtiRaises : field 12 4 (0x8ABC : Word) = 8#4 := by decide
theorem witness_ReservedOpcodeRaises : field 12 4 (0xDFFF : Word) = 13#4 := by decide

/-- Each of the four causes is reached by a step of a running block. -/
theorem witness_StateLeftByFatalStops :
    (∃ t, step (at_ 0x3000 0xD000) = .next t ∧ t.run = .faulted (.invalidOpcode 0xD000)) ∧
    (∃ t, step (at_ 0x3000 0x8000) = .next t ∧ t.run = .faulted (.unsupportedInstruction 0x8000)) ∧
    (∃ t, step (at_ 0x3000 0xF026) = .next t ∧ t.run = .faulted (.invalidTrapVector 0x26)) ∧
    (∃ t, step ((at_ 0x3000 0xF020).setInput [.failure]) = .next t ∧ t.run = .faulted .hostIOFailure) :=
  ⟨⟨_, rfl, rfl⟩, ⟨_, rfl, rfl⟩, ⟨_, rfl, rfl⟩, ⟨_, rfl, rfl⟩⟩

/-- A memory whose every word from `lo` on is `v`. -/
theorem lookup_filled (v : Word) (n : Nat) : ∀ lo k, lo ≤ k → k < lo + n →
    Memory.lookup k ((List.range' lo n).map fun j => (j, v)) = v := by
  induction n with
  | zero => intro lo k h1 h2; omega
  | succ n ih =>
    intro lo k h1 h2
    rw [List.range'_succ, List.map_cons, Memory.lookup]
    split
    · rfl
    · exact ih (lo + 1) k (by omega) (by omega)

/-- The state whose memory has no terminator: every word is 0x0101. -/
def noTerminator : State := State.reset.setMem ((List.range' 0 65536).map fun j => (j, 0x0101))

theorem noTerminator_memRead (a : Word) : noTerminator.memRead a = 0x0101 :=
  lookup_filled 0x0101 65536 0 a.toNat (Nat.zero_le _) (by have := a.isLt; omega)

/-- A memory with a terminator (the reset state's) and one without. -/
theorem witness_StringServicesEndAtATerminator : State.reset.sinkRoom = none ∧ State.reset.memRead 0 = 0 ∧
    noTerminator.sinkRoom = none ∧ (∀ a, noTerminator.memRead a ≠ 0) ∧
    ∀ a, (noTerminator.memRead a).toNat % 256 ≠ 0 ∧ (noTerminator.memRead a).toNat / 256 ≠ 0 :=
  ⟨rfl, rfl, rfl, fun a => by rw [noTerminator_memRead]; decide, fun a => by rw [noTerminator_memRead]; decide⟩

/-- No byte yet, a silent stream, a sink that takes the prompt and no more, and a block that waits. -/
theorem witness_ReadsWaitForInput : (State.reset.setInput [.notYet, .byte 1]).input = .notYet :: [.byte 1] ∧
    State.reset.input = [] ∧ (State.reset.setSinkRoom (some 19)).sinkTakes defaultInPrompt.length ∧
    (State.reset.setWaiting (some .inp)).run = .running ∧
    (State.reset.setWaiting (some .inp)).waiting = some .inp ∧ (State.reset.setWaiting (some .inp)).input = [] :=
  ⟨rfl, rfl, .inr ⟨19, rfl, by decide⟩, rfl, rfl, rfl⟩

/-- A GETC that waits, with a sink that takes nothing; an IN that waits, with one that takes its echo, and with one that
does not. -/
theorem witness_SuppliedByteEndsTheWait :
    (let s := (State.reset.setWaiting (some .getc)).setSinkRoom (some 0)
     s.run = .running ∧ s.waiting = some .getc ∧ s.input = [] ∧ (WaitPoint.getc = .inp → s.sinkTakes 1)) ∧
    (let s := (State.reset.setWaiting (some .inp)).setSinkRoom (some 1)
     s.run = .running ∧ s.waiting = some .inp ∧ s.input = [] ∧ s.sinkTakes 1) ∧
    (let s := (State.reset.setWaiting (some .inp)).setSinkRoom (some 0)
     s.run = .running ∧ s.waiting = some .inp ∧ s.input = [] ∧ s.sinkRoom = some 0) :=
  ⟨⟨rfl, rfl, rfl, nofun⟩, ⟨rfl, rfl, rfl, .inr ⟨1, rfl, le_rfl⟩⟩, rfl, rfl, rfl, rfl⟩

/-- GETC after two waits, and IN at once with a sink that takes the prompt and no more. -/
theorem witness_WaitingChangesNothing :
    (let s := (at_ 0x3000 0xF020).setInput [.notYet, .notYet, .byte 0x41]
     s.run = .running ∧ s.waiting = none ∧ s.input = List.replicate 2 .notYet ++ .byte 0x41 :: [] ∧
       decode s.fetch = .getc 0) ∧
    (let s := ((at_ 0x3000 0xF023).setInput [.byte 0x41]).setSinkRoom (some 19)
     s.run = .running ∧ s.waiting = none ∧ s.input = List.replicate 0 .notYet ++ .byte 0x41 :: [] ∧
       decode s.fetch = .inp 0 ∧ s.sinkTakes s.cfg.inPrompt.length) :=
  ⟨by decide, rfl, rfl, rfl, by decide, .inr ⟨19, rfl, by decide⟩⟩

theorem witness_ResetHasInvariant : Memory.wf [(0, 1)] = true := by decide

/-- A state that waits in IN and has the invariant, and its step. -/
theorem witness_StepKeepsInvariant :
    let s := ({ (at_ 0x3001 0).writeReg 7 0x3001 with
      output := asOutput defaultInPrompt ++ [.flush] } : State).setWaiting (some .inp)
    s.Inv ∧ ∃ t, step s = .next t :=
  ⟨⟨rfl, fun _ => rfl, fun _ => rfl, fun _ => ⟨[], rfl⟩⟩, ⟨_, rfl⟩⟩

/-- A step with a next state, and the endless PUTS. -/
theorem witness_OnlyEndlessStringsHaveNoNextState : (∃ t, step State.reset = .next t) ∧
    exec (.puts 0) noTerminator = .fault .serviceNeverEnds := by
  refine ⟨⟨_, rfl⟩, ?_⟩
  show (svcPuts (link noTerminator)).outcome = _
  rw [svcPuts, putsLoop_without_terminator _ _ (link noTerminator) rfl fun a => by
    rw [show (link noTerminator).memRead a = _ from noTerminator_memRead a]; decide]
  rfl

/-- A running step, one that stops for each of the three classes, and HALT. -/
theorem witness_WordsThatStopTheMachine : (∃ t, step State.reset = .next t ∧ t.run = .running) ∧
    (∃ t, step (at_ 0x3000 0xF01F) = .next t ∧ t.run = .faulted (.invalidTrapVector 0x1F)) ∧
    (∃ t, step (at_ 0x3000 0xF025) = .next t ∧ t.run = .halted) := ⟨⟨_, rfl, rfl⟩, ⟨_, rfl, rfl⟩, ⟨_, rfl, rfl⟩⟩

/-- A flag changed; a GETC that waits; and a row that does not read the flags. -/
theorem witness_FlagsAreWrittenAndReadOnlyWhereListed :
    (∃ t, exec (.addImm 0 0 5) State.reset = .next t ∧ t.cond ≠ State.reset.cond) ∧
    (∃ t, exec (.getc 0) State.reset = .next t ∧ (Instr.getc 0).flagRegister = some 0 ∧ t.waiting ≠ none) ∧
    (Instr.puts 0).readsCond = false := ⟨⟨_, rfl, by decide⟩, ⟨_, rfl, rfl, by decide⟩, rfl⟩

/-- A register changed by a fetched instruction, and one changed by a service that waited. -/
theorem witness_RegistersAreWrittenOnlyWhereNamed :
    (∃ t, step (at_ 0x3000 0x1025) = .next t ∧ t.x 0 ≠ (at_ 0x3000 0x1025).x 0) ∧
    (∃ t, step ((State.reset.setWaiting (some .getc)).setInput [.byte 1]) = .next t ∧ t.x 0 ≠ State.reset.x 0) :=
  ⟨⟨_, rfl, by decide⟩, ⟨_, rfl, by decide⟩⟩

theorem witness_MemoryIsWrittenOnlyByStores :
    let s := (at_ 0x3000 0x3203).writeReg 1 0xCAFE
    s.mem.wf = true ∧ ∃ t, step s = .next t ∧ t.memRead 0x3004 ≠ s.memRead 0x3004 := ⟨by decide, ⟨_, rfl, by decide⟩⟩

/-- A memory that differs, and agrees at the one address LD reads. -/
theorem witness_ListedAccessesAreAllMemoryUse :
    let s := (State.reset.setMem [(2, 7)]).setPc 0
    dataAccesses (.ld 1 2) s = [.read 2] ∧ [((2 : Nat), (7 : Word)), (9, 9)] ≠ s.mem ∧
      ∀ a, Access.read a ∈ dataAccesses (.ld 1 2) s → Memory.read [(2, 7), (9, 9)] a = s.memRead a := by
  have e : dataAccesses (.ld 1 2) ((State.reset.setMem [(2, 7)]).setPc 0) = [.read 2] := by decide
  refine ⟨e, by decide, fun a h => ?_⟩
  rw [e] at h
  obtain rfl : a = 2 := by simpa using h
  decide

/-- A step that sends and one of a block that has stopped. -/
theorem witness_StreamsMoveOneWay : (∃ t, step (at_ 0x3000 0xF021) = .next t ∧ t.output ≠ []) ∧
    ∃ t, step (State.reset.setRun .halted) = .next t ∧ (State.reset.setRun .halted).run ≠ .running :=
  ⟨⟨_, rfl, by decide⟩, ⟨_, rfl, by decide⟩⟩

end Sys2Proof.Tests
end

section
/-! PROOFS. The state family, rules: what reading, sending and the trap table do beyond Laws/, in the form the statements
about the whole machine need (spec/10_state.md R17, R20, R24, R25; spec/43_trap_system.md R120, R127). -/

namespace Sys2Proof.Machine

/-! ### Sending, by the sink's room -/

/-- Bytes the sink has no room for are cut off at the first it does not take (R26, R142). -/
theorem hostOutAll_cutOff {bs : List Byte} {s : State} (h : ¬ s.sinkTakes bs.length) :
    ∃ n, hostOutAll bs s = .raised (s.cutOff (bs.take n)) := by
  obtain ⟨n, hn⟩ : ∃ n, s.sinkRoom = some n := Option.ne_none_iff_exists'.mp fun e => h (.inl e)
  exact ⟨n, hostOutAll_raised bs s n hn (Nat.lt_of_not_le fun hle => h (.inr ⟨n, hn, hle⟩))⟩

/-- The state in which IN reaches its HostIn(): the prompt taken by the sink, then the flush point (R127). -/
def State.prompted (s : State) : State := hostFlush (s.sent s.cfg.inPrompt)

/-- IN reads after its prompt, where the sink takes it (R127). -/
theorem svcIn_reads {s : State} (h : s.sinkTakes s.cfg.inPrompt.length) : svcIn s = inRead s.prompted := by
  rw [svcIn, hostOutAll_done _ s h]; rfl

/-- IN stops inside its prompt, where the sink does not take it all (R142). -/
theorem svcIn_cutOff {s : State} (h : ¬ s.sinkTakes s.cfg.inPrompt.length) :
    ∃ n, svcIn s = .raised (s.cutOff (s.cfg.inPrompt.take n)) := by
  obtain ⟨n, e⟩ := hostOutAll_cutOff h
  exact ⟨n, by rw [svcIn, e]; rfl⟩

/-! ### One turn of the string loops (R126, R128) -/

theorem putsLoop_terminator {n : Nat} {a : Word} {s : State} (h : s.memRead a = 0x0000#16) :
    putsLoop (n + 1) a s = .done s := by
  rw [putsLoop, if_pos h]

theorem putsLoop_char {n : Nat} {a : Word} {s : State} (h : s.memRead a ≠ 0x0000#16) :
    putsLoop (n + 1) a s = (hostOutAll (putsChar (s.memRead a)) s).andThen (putsLoop n (a + 1)) := by
  rw [putsLoop, if_neg h]

theorem putspLoop_low_zero {n : Nat} {a : Word} {s : State} (h : lowByte (s.memRead a) = 0x00#8) :
    putspLoop (n + 1) a s = .done s := by
  rw [putspLoop, if_pos h]

theorem putspLoop_high_zero {n : Nat} {a : Word} {s : State} (hl : lowByte (s.memRead a) ≠ 0x00#8)
    (hh : highByte (s.memRead a) = 0x00#8) : putspLoop (n + 1) a s = hostOut (lowByte (s.memRead a)) s := by
  simp only [putspLoop, if_neg hl, if_pos hh]
  cases hostOut (lowByte (s.memRead a)) s <;> rfl

theorem putspLoop_word {n : Nat} {a : Word} {s : State} (hl : lowByte (s.memRead a) ≠ 0x00#8)
    (hh : highByte (s.memRead a) ≠ 0x00#8) :
    putspLoop (n + 1) a s = (hostOut (lowByte (s.memRead a)) s).andThen fun t =>
      (hostOut (highByte (s.memRead a)) t).andThen (putspLoop n (a + 1)) := by
  simp only [putspLoop, if_neg hl, if_neg hh]

/-! ### Reading, for both services alike (R25) -/

@[simp] theorem State.setInput_self (s : State) : s.setInput s.input = s := rfl

@[simp] theorem State.setWaiting_self (s : State) : s.setWaiting s.waiting = s := rfl

/-- No byte yet, said or silent: the service waits at its HostIn() (R25(b)). -/
theorem resume_waits (p : WaitPoint) {s : State} {rest : List HostInput}
    (h : s.input = .notYet :: rest ∨ (s.input = [] ∧ rest = [])) :
    resume p s = .waits ((s.setInput rest).setWaiting (some p)) := by
  rcases h with h | ⟨h, rfl⟩
  · cases p with
    | getc => exact getcRead_notYet h
    | inp => exact inRead_notYet h
  · have e : s.setInput [] = s := by rw [← h, State.setInput_self]
    cases p with
    | getc => rw [e]; exact getcRead_silent h
    | inp => rw [e]; exact inRead_silent h

/-- A closed or failing stream (R25(c)). -/
theorem resume_failure (p : WaitPoint) {s : State} {rest : List HostInput} (h : s.input = .failure :: rest) :
    resume p s = .raised (raise .hostIOFailure (s.setWaiting none)) := by
  cases p with
  | getc => exact getcRead_failure h
  | inp => exact inRead_failure h

/-- Where a byte is there, that the service had waited makes no difference (D15). -/
theorem resume_byte_setWaiting (p : WaitPoint) {s : State} {b : Byte} {rest : List HostInput}
    (h : s.input = .byte b :: rest) (w : Option WaitPoint) : resume p (s.setWaiting w) = resume p s := by
  cases p with
  | getc => exact (getcRead_byte (s := s.setWaiting w) h).trans (getcRead_byte h).symm
  | inp => exact (inRead_byte (s := s.setWaiting w) h).trans (inRead_byte h).symm

/-! ### A register write with its flags -/

theorem State.writeRegSetcc_cond (s : State) (i : RegSel) (v : Word) : (s.writeRegSetcc i v).cond = condOf v := by
  rw [State.writeRegSetcc_eq, State.setCond_cond]

/-- The flags tell of the register (R16). -/
theorem State.writeRegSetcc_flagsFor (s : State) (i : RegSel) (v : Word) :
    FlagsFor ((s.writeRegSetcc i v).x i) (s.writeRegSetcc i v).cond := by
  have w := State.writeRegSetcc_wrote s i v
  rw [w.dest]; exact w.flags

/-! ### A zero-extended byte as a number, and its flag -/

theorem zext_byte (b : Byte) : zext b = BitVec.ofNat 16 b.toNat := (BitVec.ofNat_toNat 16 b).symm

/-- A byte in a register is never negative (R16, R124). -/
theorem condOf_zext_byte (b : Byte) : condOf (zext b) = if b = 0 then .Z else .P := by
  have hz : zext b = 0#16 ↔ b = 0 := by
    rw [zext_byte, ← BitVec.toNat_inj, ← BitVec.toNat_inj]
    have := b.isLt
    simp; omega
  have hm : (zext b).msb = false := by simp [zext, BitVec.msb_setWidth]
  simp [condOf, hz, hm]

/-! ### The vectors that do not read -/

theorem Flow.All.and {P Q : State → Prop} {f : Flow} (hp : f.All P) (hq : f.All Q) : f.All fun t => P t ∧ Q t := by
  cases f with
  | done t | raised t | waits t => exact ⟨hp, hq⟩
  | endless => trivial

/-- What a service that reads no byte leaves as it was (R17, R25). -/
structure Unread (s t : State) : Prop where
  regs : t.regs = s.regs
  cond : t.cond = s.cond
  waiting : t.waiting = s.waiting

theorem Flow.All.andThen_unread {s : State} {f : Flow} {k : State → State} (hf : f.All (Sent s))
    (hk : ∀ t, Unread t (k t)) : (f.andThen fun t => .done (k t)).All (Unread s) :=
  hf.andThen (fun _ h => ⟨h.regs, h.cond, h.waiting⟩) fun t h =>
    ⟨(hk t).regs.trans h.regs, (hk t).cond.trans h.cond, (hk t).waiting.trans h.waiting⟩

/-- Every vector but GETC's and IN's writes no register and no flag after the link, and does not wait (R120, R121). -/
theorem trapTable_unread {v : BitVec 8} (h20 : v ≠ 0x20#8) (h23 : v ≠ 0x23#8) (s : State) :
    (trapTable v s).All (Unread s) := by
  have flush : ∀ t, Unread t (hostFlush t) := fun _ => ⟨rfl, rfl, rfl⟩
  by_cases hv : isServiceVector v = true
  · rcases isServiceVector_cases hv with rfl | rfl | rfl | rfl | rfl | rfl
    · exact absurd rfl h20
    · exact (hostOut_sent _ s).andThen_unread flush
    · exact (putsLoop_sent _ _ s).andThen_unread flush
    · exact absurd rfl h23
    · exact (putspLoop_sent _ _ s).andThen_unread flush
    · exact (hostOutAll_sent _ s).andThen_unread fun _ => ⟨rfl, rfl, rfl⟩
  · rw [trapTable_invalid (by simpa using hv)]
    exact ⟨rfl, rfl, rfl⟩

/-- The registers a TRAP row may write, by its vector (R12). -/
theorem mayWrite_of_trapVector {i : Instr} {v : BitVec 8} (h : trapVector i = some v) :
    i.mayWrite = if v = 0x20#8 ∨ v = 0x23#8 then [7#3, 0#3] else [7#3] := by
  cases i <;> simp [trapVector] at h <;> subst h <;> rfl

/-- The flags' register of a TRAP row, by its vector (R17). -/
theorem flagRegister_of_trapVector {i : Instr} {v : BitVec 8} (h : trapVector i = some v) :
    i.flagRegister = if v = 0x20#8 ∨ v = 0x23#8 then some 0#3 else none := by
  cases i <;> simp [trapVector] at h <;> subst h <;> rfl

/-- A TRAP row's next state is one its vector's service may end in, begun after the link write (R120). -/
theorem exec_trap_next {P : State → Prop} {i : Instr} {v : BitVec 8} {s t : State} (hv : trapVector i = some v)
    (hP : (trapTable v (link s)).All P) (h : exec i s = .next t) : P t :=
  hP.of_next (by rwa [exec_trapVector hv] at h)

end Sys2Proof.Machine
end

section
/-! PROOFS. The state family, invariants: what every step keeps (spec/10_state.md R24, R25; spec/20_memory.md
section 1), and which registers it writes (R12). -/

namespace Sys2Proof.Machine

/-! ### What every step keeps -/

/-- The streams have moved one way, the parameters are the same, and the memory's canonical form is kept. -/
structure Kept (s t : State) : Prop where
  output : s.output <+: t.output
  input : t.input <:+ s.input
  cfg : t.cfg = s.cfg
  memory : s.mem.wf = true → t.mem.wf = true

theorem Served.kept {s t : State} (h : Served s t) : Kept s t := ⟨h.output, h.input, h.cfg, fun hm => by rwa [h.mem]⟩

/-- A row that is no TRAP ends in a next state with the host's side as it was (R86, R90, R108). -/
theorem exec_hostSame {i : Instr} (hv : trapVector i = none) {s t : State} (h : exec i s = .next t) :
    HostSame s t ∧ (s.mem.wf = true → t.mem.wf = true) := by
  obtain ⟨r, v, -, -, -, e⟩ | ⟨a, -, -, -, e⟩ | ⟨a, -, -, -, e⟩ | ⟨a, v, -, -, -, e⟩ | ⟨c, -, -, -, e, -⟩ :=
    exec_cases hv s <;> rw [e] at h <;> cases h
  · rw [State.writeRegSetcc_eq]; exact ⟨⟨rfl, rfl, rfl, rfl, rfl⟩, id⟩
  · exact ⟨⟨rfl, rfl, rfl, rfl, rfl⟩, id⟩
  · exact ⟨⟨rfl, rfl, rfl, rfl, rfl⟩, id⟩
  · exact ⟨⟨rfl, rfl, rfl, rfl, rfl⟩, fun hm => Memory.wf_write hm a v⟩
  · exact ⟨⟨rfl, rfl, rfl, rfl, rfl⟩, id⟩

theorem exec_kept {i : Instr} {s t : State} (h : exec i s = .next t) : Kept s t := by
  cases hv : trapVector i with
  | some v =>
    have k := (exec_trap_next hv (trapTable_served v _) h).kept
    exact ⟨k.output, k.input, k.cfg, k.memory⟩
  | none =>
    obtain ⟨hs, hm⟩ := exec_hostSame hv h
    exact ⟨hs.output ▸ List.prefix_rfl, hs.input ▸ List.suffix_rfl, hs.cfg, hm⟩

theorem step_kept {s t : State} (h : step s = .next t) : Kept s t := by
  obtain ⟨-, -, he⟩ | ⟨-, p, -, he⟩ | ⟨-, rfl⟩ := step_next h
  · have k := exec_kept he
    exact ⟨k.output, k.input, k.cfg, k.memory⟩
  · exact ((resume_served p s).of_next he).kept
  · exact ⟨List.prefix_rfl, List.suffix_rfl, rfl, id⟩

/-- Settles O59: every step keeps `Kept`, and a stopped block is unchanged. -/
theorem streamsMoveOneWay : Obligations.StreamsMoveOneWay := by
  intro s t h
  obtain ⟨ho, hi, hc, -⟩ := step_kept h
  refine ⟨ho, hi, hc, fun hr => ?_⟩
  rw [step_stopped hr] at h
  cases h; rfl

/-! ### The invariant -/

/-- Where no service waits the invariant is the memory's canonical form. -/
theorem State.Inv.of_not_waiting {s : State} (hm : s.mem.wf = true) (hw : s.waiting = none) : s.Inv :=
  ⟨hm, by simp [hw], by simp [hw], by simp [hw]⟩

/-- A wait is entered, or goes on, with less input: the invariant does not speak of the input. -/
theorem State.Inv.setInput {s : State} (h : s.Inv) (l : List HostInput) : (s.setInput l).Inv :=
  ⟨h.memory, h.waitRuns, h.waitLinked, h.waitPrompted⟩

/-- A service at its HostIn(), in a state it may wait in, ends in the invariant: it waits there again, or no longer. -/
theorem resume_inv {p : WaitPoint} {s : State} (h : (s.setWaiting (some p)).Inv) : (resume p s).All State.Inv := by
  have hm : s.mem.wf = true := h.memory
  cases p with
  | getc =>
    obtain ⟨b, more, -, e⟩ | ⟨more, e, -⟩ | e := getcRead_ends s <;> rw [resume, e]
    · exact .of_not_waiting hm rfl
    · exact h.setInput more
    · exact .of_not_waiting hm rfl
  | inp =>
    obtain ⟨b, more, t, -, hout, e⟩ | ⟨more, e, -⟩ | ⟨b, more, -, e⟩ | e := inRead_ends s <;> rw [resume, e]
    · have sent := hostOut_sent b ((s.setInput more).setWaiting none)
      rw [hout] at sent
      exact .of_not_waiting (by rw [← hm]; exact congrArg Memory.wf sent.mem) sent.waiting
    · exact h.setInput more
    · exact .of_not_waiting hm rfl
    · exact .of_not_waiting hm rfl

/-- The trap table after the link write of a running block in which no service waits. -/
theorem trapTable_inv (v : BitVec 8) {s : State} (hm : s.mem.wf = true) (hr : s.run = .running)
    (hw : s.waiting = none) (hl : s.x 7#3 = s.pc) : (trapTable v s).All State.Inv := by
  by_cases h20 : v = 0x20#8
  · subst h20
    exact resume_inv (p := .getc) ⟨hm, fun _ => hr, fun _ => hl, by simp⟩
  by_cases h23 : v = 0x23#8
  · subst h23
    rw [trapTable_in]
    by_cases hs : s.sinkTakes s.cfg.inPrompt.length
    · rw [svcIn_reads hs]
      exact resume_inv (p := .inp) ⟨hm, fun _ => hr, fun _ => hl, fun _ => ⟨s.output, rfl⟩⟩
    · obtain ⟨n, e⟩ := svcIn_cutOff hs
      rw [e]
      exact .of_not_waiting hm hw
  exact ((trapTable_unread h20 h23 s).and (trapTable_served v s)).mono fun t ⟨hu, hs⟩ =>
    .of_not_waiting (hs.kept.memory hm) (hu.waiting.trans hw)

/-- The execute phase of a running block in which no service waits. -/
theorem exec_inv {i : Instr} {s t : State} (hm : s.mem.wf = true) (hr : s.run = .running) (hw : s.waiting = none)
    (h : exec i s = .next t) : t.Inv := by
  cases hv : trapVector i with
  | some v => exact exec_trap_next hv (trapTable_inv v hm hr hw (link_x_seven s)) h
  | none =>
    obtain ⟨hs, hmem⟩ := exec_hostSame hv h
    exact .of_not_waiting (hmem hm) (hs.waiting.trans hw)

/-- Settles O52, by the three ways a step answers a next state: a fetched instruction may enter a wait, a waiting service
may stay in it, and a stopped block is unchanged. -/
theorem stepKeepsInvariant : Obligations.StepKeepsInvariant := by
  intro s t hi h
  refine ⟨?_, (step_kept h).cfg⟩
  obtain ⟨hr, hw, he⟩ | ⟨-, p, hp, he⟩ | ⟨-, rfl⟩ := step_next h
  · exact exec_inv (s := s.advance) hi.memory hr hw he
  · exact (resume_inv (by rwa [← hp, State.setWaiting_self])).of_next he
  · exact hi

/-! ### The registers a step writes -/

/-- The execute phase writes no register but those the row names (R12). -/
theorem exec_regsSameBut {i : Instr} {s t : State} (h : exec i s = .next t) : RegsSameBut i.mayWrite s t := by
  intro r hr
  cases hv : trapVector i with
  | some v =>
    rw [mayWrite_of_trapVector hv] at hr
    split at hr
    · obtain ⟨h7, h0⟩ : r ≠ 7#3 ∧ r ≠ 0#3 := by simpa using hr
      rw [(exec_trap_next hv (trapTable_served v _) h).regs r h0, link_x, if_neg h7]
    · next hn =>
      obtain ⟨h20, h23⟩ := not_or.mp hn
      rw [State.x_eq_of_regs (exec_trap_next hv (trapTable_unread h20 h23 _) h).regs]
      exact link_regsSameBut s r hr
  | none =>
    obtain ⟨d, v, -, hw, -, e⟩ | ⟨a, -, -, -, e⟩ | ⟨a, -, hw, -, e⟩ | ⟨a, v, -, -, -, e⟩ | ⟨c, -, -, -, e, -⟩ :=
      exec_cases hv s <;> rw [e] at h <;> cases h
    · exact (State.writeRegSetcc_wrote s d v).regs r (hw ▸ hr)
    · rfl
    · exact link_regsSameBut s r (hw ▸ hr)
    · rfl
    · rfl

/-- Settles O56, by the three ways a step answers a next state. -/
theorem registersAreWrittenOnlyWhereNamed : Obligations.RegistersAreWrittenOnlyWhereNamed := by
  intro s t r h hne
  obtain ⟨hr, hw, he⟩ | ⟨hr, p, hp, he⟩ | ⟨-, rfl⟩ := step_next h
  · exact ⟨hr, .inl ⟨hw, by_contra fun hn => hne (exec_regsSameBut he r hn)⟩⟩
  · exact ⟨hr, .inr ⟨by simp [hp], by_contra fun hn => hne (((resume_served p s).of_next he).regs r hn)⟩⟩
  · exact absurd rfl hne

end Sys2Proof.Machine
end

section
/-! PROOFS. The state family, the flags: who writes them, and that no row but BR reads them (spec/10_state.md R17). -/

namespace Sys2Proof.Machine

/-! ### Writers -/

/-- A row whose flags tell of no register leaves the flags as they were. -/
theorem exec_cond_of_no_flagRegister {i : Instr} {s t : State} (hf : i.flagRegister = none)
    (h : exec i s = .next t) : t.cond = s.cond := by
  cases hv : trapVector i with
  | some v =>
    rw [flagRegister_of_trapVector hv] at hf
    obtain ⟨h20, h23⟩ := not_or.mp fun hn => by rw [if_pos hn] at hf; cases hf
    exact (exec_trap_next hv (trapTable_unread h20 h23 _) h).cond
  | none =>
    obtain ⟨r, v, hr, -, -, e⟩ | ⟨a, -, -, -, e⟩ | ⟨a, -, -, -, e⟩ | ⟨a, v, -, -, -, e⟩ | ⟨c, -, -, -, e, -⟩ :=
      exec_cases hv s
    · rw [hr] at hf; cases hf
    all_goals rw [e] at h; cases h; rfl

/-- What a reading service may leave in the flags: they tell of `x[0]`, or it waits (log 14) or its stream has failed
(R146) and they are as they were. -/
def ReadFlags (s t : State) : Prop :=
  FlagsFor (t.x 0#3) t.cond ∨ (t.waiting ≠ none ∨ t.run = .faulted .hostIOFailure) ∧ t.cond = s.cond

theorem readFlags_written (s t : State) (v : Word) : ReadFlags s (t.writeRegSetcc 0#3 v) :=
  .inl (State.writeRegSetcc_flagsFor t 0#3 v)

theorem resume_readFlags (p : WaitPoint) (s : State) : (resume p s).All (ReadFlags s) := by
  have waits : ∀ more q, ReadFlags s ((s.setInput more).setWaiting (some q)) := fun _ _ => .inr ⟨.inl nofun, rfl⟩
  cases p with
  | getc =>
    obtain ⟨b, more, -, e⟩ | ⟨more, e, -⟩ | e := getcRead_ends s <;> rw [resume, e]
    · exact readFlags_written s _ _
    · exact waits more _
    · exact .inr ⟨.inr rfl, rfl⟩
  | inp =>
    obtain ⟨b, more, t, -, -, e⟩ | ⟨more, e, -⟩ | ⟨b, more, -, e⟩ | e := inRead_ends s <;> rw [resume, e]
    · exact readFlags_written s _ _
    · exact waits more _
    · exact .inr ⟨.inr rfl, rfl⟩
    · exact .inr ⟨.inr rfl, rfl⟩

theorem svcIn_readFlags (s : State) : (svcIn s).All (ReadFlags s) := by
  by_cases hs : s.sinkTakes s.cfg.inPrompt.length
  · rw [svcIn_reads hs]; exact resume_readFlags .inp s.prompted
  · obtain ⟨n, e⟩ := svcIn_cutOff hs
    rw [e]; exact .inr ⟨.inr rfl, rfl⟩

/-- A listed row leaves the flags by the rule of its register, or, for GETC and IN, as `ReadFlags` says. -/
theorem exec_flags {i : Instr} {r : RegSel} {s t : State} (hf : i.flagRegister = some r) (h : exec i s = .next t) :
    FlagsFor (t.x r) t.cond ∨ (t.waiting ≠ none ∨ t.run = .faulted .hostIOFailure) ∧ t.cond = s.cond := by
  cases hv : trapVector i with
  | some v =>
    rw [flagRegister_of_trapVector hv] at hf
    split at hf <;> cases hf
    next hn =>
    rcases hn with rfl | rfl
    · exact exec_trap_next hv (resume_readFlags .getc (link s)) h
    · exact exec_trap_next hv (svcIn_readFlags (link s)) h
  | none =>
    obtain ⟨d, v, hd, -, -, e⟩ | ⟨a, hn, -⟩ | ⟨a, hn, -⟩ | ⟨a, v, hn, -⟩ | ⟨c, hn, -⟩ := exec_cases hv s
    · obtain rfl : d = r := Option.some.inj (hd.symm.trans hf)
      rw [e] at h; cases h
      exact .inl (State.writeRegSetcc_flagsFor s d v)
    all_goals rw [hn] at hf; cases hf

/-! ### Readers

A part of an instruction does not read the flags when, begun with other flags, it ends in the same way in a state that
differs in the flags alone. -/

/-- How a part ends, the flags blotted out. -/
def Flow.forgetCond : Flow → Flow
  | .done s => .done (s.setCond .Z)
  | .raised s => .raised (s.setCond .Z)
  | .waits s => .waits (s.setCond .Z)
  | .endless => .endless

/-- The part does not read the flags. -/
def CondFree (k : State → Flow) : Prop := ∀ s c, (k (s.setCond c)).forgetCond = (k s).forgetCond

theorem State.eq_setCond_of_forget {s t : State} (h : s.setCond .Z = t.setCond .Z) : s = t.setCond s.cond :=
  calc s = (s.setCond .Z).setCond s.cond := rfl
    _ = (t.setCond .Z).setCond s.cond := by rw [h]
    _ = t.setCond s.cond := rfl

theorem CondFree.done {f : State → State} (h : ∀ s c, (f (s.setCond c)).setCond .Z = (f s).setCond .Z) :
    CondFree fun s => .done (f s) := fun s c => congrArg Flow.done (h s c)

/-- Statement order: parts that do not read the flags make a whole that does not. -/
theorem Flow.forgetCond_andThen {f g : Flow} {k : State → Flow} (hk : CondFree k) (h : f.forgetCond = g.forgetCond) :
    (f.andThen k).forgetCond = (g.andThen k).forgetCond := by
  cases f <;> cases g <;> simp only [Flow.forgetCond, reduceCtorEq, Flow.done.injEq] at h
  case done.done s t => rw [State.eq_setCond_of_forget h]; exact hk t s.cond
  case endless.endless => rfl
  all_goals exact h

theorem hostOut_condFree (b : Byte) : CondFree (hostOut b) := by
  intro s c
  simp only [hostOut, State.setCond_sinkRoom]
  split <;> rfl

theorem hostOutAll_condFree (bs : List Byte) : CondFree (hostOutAll bs) := by
  induction bs with
  | nil => exact fun _ _ => rfl
  | cons b bs ih => exact fun s c => Flow.forgetCond_andThen ih (hostOut_condFree b s c)

theorem putsLoop_condFree (fuel : Nat) : ∀ a, CondFree (putsLoop fuel a) := by
  induction fuel with
  | zero => exact fun _ _ _ => rfl
  | succ n ih =>
    intro a s c
    by_cases hz : s.memRead a = 0x0000#16
    · rw [putsLoop_terminator hz, putsLoop_terminator (s := s.setCond c) hz]; rfl
    · rw [putsLoop_char hz, putsLoop_char (s := s.setCond c) hz]
      exact Flow.forgetCond_andThen (ih _) (hostOutAll_condFree _ s c)

theorem putspLoop_condFree (fuel : Nat) : ∀ a, CondFree (putspLoop fuel a) := by
  induction fuel with
  | zero => exact fun _ _ _ => rfl
  | succ n ih =>
    intro a s c
    by_cases hl : lowByte (s.memRead a) = 0x00#8
    · rw [putspLoop_low_zero hl, putspLoop_low_zero (s := s.setCond c) hl]; rfl
    by_cases hh : highByte (s.memRead a) = 0x00#8
    · rw [putspLoop_high_zero hl hh, putspLoop_high_zero (s := s.setCond c) hl hh]
      exact hostOut_condFree _ s c
    · rw [putspLoop_word hl hh, putspLoop_word (s := s.setCond c) hl hh]
      exact Flow.forgetCond_andThen (fun t d => Flow.forgetCond_andThen (ih _) (hostOut_condFree _ t d))
        (hostOut_condFree _ s c)

theorem hostIn_condFree (p : WaitPoint) {k : Byte → State → Flow} (hk : ∀ b, CondFree (k b)) :
    CondFree (hostIn p k) := by
  intro s c
  simp only [hostIn, State.setCond_input]
  split
  · next b more _ => exact hk b ((s.setInput more).setWaiting none) c
  all_goals rfl

theorem writeRegSetcc_condFree (i : RegSel) (v : Word) : CondFree fun s => .done (s.writeRegSetcc i v) :=
  .done fun _ _ => rfl

/-- IN's echo and what follows it (R127). -/
theorem echo_condFree (b : Byte) :
    CondFree fun s => (hostOut b s).andThen fun t => .done (t.writeRegSetcc 0#3 (zext b)) :=
  fun s c => Flow.forgetCond_andThen (writeRegSetcc_condFree _ _) (hostOut_condFree b s c)

theorem resume_condFree (p : WaitPoint) : CondFree (resume p) := by
  cases p with
  | getc => exact hostIn_condFree .getc fun _ => writeRegSetcc_condFree _ _
  | inp => exact hostIn_condFree .inp echo_condFree

/-- No service reads the flags (R17). -/
theorem trapTable_condFree (v : BitVec 8) : CondFree (trapTable v) := by
  have flush : CondFree fun t => .done (hostFlush t) := .done fun _ _ => rfl
  intro s c
  by_cases hv : isServiceVector v = true
  · rcases isServiceVector_cases hv with rfl | rfl | rfl | rfl | rfl | rfl
    · exact resume_condFree .getc s c
    · exact Flow.forgetCond_andThen flush (hostOut_condFree _ s c)
    · exact Flow.forgetCond_andThen flush (putsLoop_condFree _ _ s c)
    · exact Flow.forgetCond_andThen (fun t d => resume_condFree .inp (hostFlush t) d) (hostOutAll_condFree _ s c)
    · exact Flow.forgetCond_andThen flush (putspLoop_condFree _ _ s c)
    · exact Flow.forgetCond_andThen (.done fun _ _ => rfl) (hostOutAll_condFree _ s c)
  · rw [trapTable_invalid (by simpa using hv), trapTable_invalid (by simpa using hv)]; rfl

/-- Two outcomes are the same but for the flags. -/
def SameButCond : Host.Outcome State Fault Refusal → Host.Outcome State Fault Refusal → Prop
  | .next t, o => ∃ u, o = .next u ∧ u.setCond .Z = t.setCond .Z
  | .fault f, o => o = .fault f
  | .refused r, o => o = .refused r

theorem Flow.sameButCond_outcome {f g : Flow} (h : g.forgetCond = f.forgetCond) :
    SameButCond f.outcome g.outcome := by
  cases f <;> cases g <;> simp only [Flow.forgetCond, reduceCtorEq, Flow.done.injEq, Flow.raised.injEq,
    Flow.waits.injEq] at h
  case endless.endless => rfl
  all_goals exact ⟨_, rfl, h⟩

theorem exec_nop (off : BitVec 9) (s : State) : exec (.nop off) s = .next s := by
  cases hc : s.cond <;> simp [exec, execNop, brTaken, hc]

/-- The execute phase of a row but BR does not read the flags (R17). -/
theorem exec_sameButCond {i : Instr} (hi : i.readsCond = false) (s : State) (c : Cond) :
    SameButCond (exec i s) (exec i (s.setCond c)) := by
  cases hv : trapVector i with
  | some v =>
    rw [exec_trapVector hv, exec_trapVector hv]
    exact Flow.sameButCond_outcome (trapTable_condFree v (link s) c)
  | none =>
    cases i with
    | br => cases hi
    | nop off => rw [exec_nop, exec_nop]; exact ⟨_, rfl, rfl⟩
    | trap | getc | out | puts | inp | putsp | halt => cases hv
    | addReg | addImm | andReg | andImm | not | jmp | jsr | jsrr | ld | ldi | lea | st | sti | ldr | str | rti | res
      | ret => exact ⟨_, rfl, rfl⟩

/-- Settles O55: the writers by `exec_flags` and `exec_cond_of_no_flagRegister`, the readers by `exec_sameButCond`. -/
theorem flagsAreWrittenAndReadOnlyWhereListed : Obligations.FlagsAreWrittenAndReadOnlyWhereListed := by
  refine ⟨fun i s t h hne => ?_, fun i r s t h hf => exec_flags hf h, fun i s c hi => ?_⟩
  · cases hf : i.flagRegister with
    | none => exact absurd (exec_cond_of_no_flagRegister hf h) hne
    | some r => exact ⟨r, rfl, (exec_flags hf h).resolve_right fun hk => hne hk.2⟩
  · have hs := exec_sameButCond hi s c
    cases he : exec i s with
    | next t => rwa [he] at hs
    | fault f => rwa [he] at hs
    | refused r => rwa [he] at hs

end Sys2Proof.Machine
end

section
/-! PROOFS. The state family, waiting and the single facts: how a reading service waits and ends (spec/10_state.md R25,
D15), the step's parts (R20), the register file (R18) and the reset values (R27). -/

namespace Sys2Proof.Machine

/-! ### Reading services reach their HostIn() (R25, R124, R127) -/

/-- The state in which a reading service, after the link write, reaches its HostIn(). -/
def State.atRead (s : State) : WaitPoint → State
  | .getc => link s
  | .inp => (link s).prompted

theorem exec_inp {s : State} (pad : BitVec 4) (h : s.sinkTakes s.cfg.inPrompt.length) :
    exec (.inp pad) s = (resume .inp (s.atRead .inp)).outcome :=
  congrArg Flow.outcome (svcIn_reads (s := link s) h)

@[simp] theorem State.atRead_run (s : State) (p : WaitPoint) : (s.atRead p).run = s.run := by cases p <;> rfl

theorem State.atRead_trapFrame (s : State) (p : WaitPoint) : TrapFrame [] s (s.atRead p) := by
  cases p <;> exact ⟨link_x_seven s, link_regsSameBut s, rfl, fun _ => rfl, rfl⟩

/-- A wait leaves TRAP's frame. -/
theorem TrapFrame.wait {ds : List RegSel} {s t : State} (h : TrapFrame ds s t) (l : List HostInput)
    (w : Option WaitPoint) : TrapFrame ds s ((t.setInput l).setWaiting w) :=
  ⟨h.linked, h.regs, h.pc, h.memory, h.cfg⟩

/-- A waiting service's step, whatever the input now holds. -/
theorem step_setInput_waiting {s : State} {p : WaitPoint} (hr : s.run = .running) (hw : s.waiting = some p)
    (l : List HostInput) : step (s.setInput l) = (resume p (s.setInput l)).outcome :=
  step_resumes (s := s.setInput l) hr hw

/-- Settles O48: both services wait where they reach their HostIn(), and a silent input leaves a waiting one there. -/
theorem readsWaitForInput : Obligations.ReadsWaitForInput := by
  refine ⟨fun pad s rest h => ⟨?_, fun hs => ?_⟩, fun s p hr hw hi => ?_⟩
  · have e := congrArg Flow.outcome (resume_waits .getc (s := s.atRead .getc) h)
    exact ⟨_, e, rfl, rfl, (s.atRead_trapFrame .getc).wait rest (some .getc), rfl, rfl, rfl, rfl⟩
  · have e := (exec_inp pad hs).trans (congrArg Flow.outcome (resume_waits .inp (s := s.atRead .inp) h))
    exact ⟨_, e, rfl, rfl, (s.atRead_trapFrame .inp).wait rest (some .inp), rfl, rfl, rfl, rfl⟩
  · rw [step_resumes hr hw, resumeStep, resume_waits p (.inr ⟨hi, rfl⟩), Flow.outcome_waits, ← hi, ← hw,
      State.setInput_self, State.setWaiting_self]

/-! ### The wait ends -/

/-- A block whose next step, whatever its input, is the reading service `p` at its HostIn() in the state `u`: with `k`
waits before the byte, `k + 1` steps end as the read of the byte at once does. Each wait leaves such a block again. -/
theorem run_reading {p : WaitPoint} {b : Byte} {rest : List HostInput} : ∀ (k : Nat) {s u : State},
    (∀ l, step (s.setInput l) = (resume p (u.setInput l)).outcome) → u.run = .running →
    s.input = List.replicate k .notYet ++ .byte b :: rest →
    core.run (k + 1) s = (resume p (u.setInput (.byte b :: rest))).outcome := by
  intro k
  induction k with
  | zero =>
    intro s u hstep _ hi
    rw [run_one, ← hstep, ← show s.input = .byte b :: rest from hi, State.setInput_self]
  | succ k ih =>
    intro s u hstep hr hi
    have wait := hstep (List.replicate (k + 1) .notYet ++ .byte b :: rest)
    rw [← hi, State.setInput_self, hi, resume_waits p (.inl rfl)] at wait
    have again := ih (s := (u.setInput (List.replicate k .notYet ++ .byte b :: rest)).setWaiting (some p))
      (step_setInput_waiting hr rfl) hr rfl
    have byte := resume_byte_setWaiting p (s := u.setInput (.byte b :: rest)) rfl (some p)
    exact (run_next wait (k + 1)).trans (again.trans (congrArg Flow.outcome byte))

/-- The same, for a running block whose next step reaches that HostIn(), against the block that finds the byte. -/
theorem run_reading_eq_run_one {p : WaitPoint} {k : Nat} {b : Byte} {rest : List HostInput} {s : State}
    (hr : s.run = .running) (hi : s.input = List.replicate k .notYet ++ .byte b :: rest)
    (hstep : ∀ l, step (s.setInput l) = (resume p ((s.advance.atRead p).setInput l)).outcome) :
    core.run (k + 1) s = core.run 1 (s.setInput (.byte b :: rest)) := by
  rw [run_one, hstep]
  exact run_reading k hstep ((s.advance.atRead_run p).trans hr) hi

/-- Settles O50, by induction on the waits (`run_reading`): GETC waits after its link, IN after its prompt. -/
theorem waitingChangesNothing : Obligations.WaitingChangesNothing := by
  intro s k b rest pad hr hw hi hd
  have fetches : ∀ l, step (s.setInput l) = exec (decode s.fetch) (s.setInput l).advance := fun l =>
    step_fetches (s := s.setInput l) hr hw
  rcases hd with hd | ⟨hd, hs⟩
  · exact run_reading_eq_run_one (p := .getc) hr hi fun l => by rw [fetches, hd]; rfl
  · exact run_reading_eq_run_one (p := .inp) hr hi fun l => by
      rw [fetches, hd, exec_inp pad (s := (s.setInput l).advance) hs]; rfl

theorem State.supply_of_silent {s : State} (h : s.input = []) (o : HostInput) : s.supply o = s.setInput [o] := by
  rw [State.supply, h]; rfl

/-- What a reading service sends on its byte: GETC nothing, IN the echo (R124, R127). -/
def WaitPoint.echo (p : WaitPoint) (b : Byte) : List Byte := if p = .inp then [b] else []

/-- The state after a reading service took its byte and sent its echo, before `x[0]` is written. -/
def State.tookByte (s : State) (p : WaitPoint) (b : Byte) (rest : List HostInput) : State :=
  ((s.sent (p.echo b)).setInput rest).setWaiting none

theorem State.sent_echo_sinkRoom (s : State) (p : WaitPoint) (b : Byte) :
    (s.sent (p.echo b)).sinkRoom = if p = .inp then s.roomAfter 1 else s.sinkRoom := by
  cases p with
  | getc => exact congrArg State.sinkRoom s.sent_nil
  | inp => rfl

/-- A byte is there and the sink takes the echo: the service ends. -/
theorem resume_byte (p : WaitPoint) {s : State} {b : Byte} {rest : List HostInput} (h : s.input = .byte b :: rest)
    (hs : p = .inp → s.sinkTakes 1) :
    resume p s = .done ((s.tookByte p b rest).writeRegSetcc 0#3 (zext b)) := by
  cases p with
  | getc =>
    rw [State.tookByte, show WaitPoint.getc.echo b = [] from rfl, State.sent_nil]
    exact getcRead_byte h
  | inp => rw [resume, inRead_byte h, hostOut_done b (by exact hs rfl)]; rfl

/-- A byte is there and the sink does not take IN's echo: the byte is consumed and `x[0]` is not written (R142). -/
theorem inRead_echo_raised {s : State} {b : Byte} {rest : List HostInput} (h : s.input = .byte b :: rest)
    (h0 : s.sinkRoom = some 0) : inRead s = .raised (raise .hostIOFailure ((s.setInput rest).setWaiting none)) := by
  rw [inRead_byte h, hostOut_raised b (by exact h0)]; rfl

/-- Settles O49: one step of the waiting service on the supplied byte, or on the end of the stream. -/
theorem suppliedByteEndsTheWait : Obligations.SuppliedByteEndsTheWait := by
  intro s p b hr hw hi
  simp only [State.supply_of_silent hi, step_setInput_waiting hr hw]
  refine ⟨fun hs => ?_, ?_, ?_⟩
  · have e := congrArg Flow.outcome (resume_byte p (s := s.setInput [.byte b]) rfl hs)
    have w := State.writeRegSetcc_wrote ((s.setInput [.byte b]).tookByte p b []) 0#3 (zext b)
    exact ⟨_, e, w.dest.trans (zext_byte b), (State.writeRegSetcc_cond ..).trans (condOf_zext_byte b), w.regs,
      w.pc, w.run.trans hr, w.memory, w.host.input, w.host.waiting, w.host.output,
      w.host.sinkRoom.trans (s.sent_echo_sinkRoom p b)⟩
  · rintro rfl h0
    have e := congrArg Flow.outcome (inRead_echo_raised (s := s.setInput [.byte b]) rfl h0)
    exact ⟨_, e, rfl, fun _ _ => rfl, rfl, rfl, fun _ => rfl, rfl, rfl, rfl, h0⟩
  · have e := congrArg Flow.outcome (resume_failure p (s := s.setInput [.failure]) rfl)
    exact ⟨_, e, rfl, fun _ _ => rfl, rfl, rfl, fun _ => rfl, rfl, rfl, rfl⟩

/-! ### The step, the register file, reset -/

/-- Settles O6, by `step_fetches`. -/
theorem stepFetchesAdvancesExecutes : Obligations.StepFetchesAdvancesExecutes := by
  intro s hr hw
  refine ⟨s.advance, step_fetches hr hw, ?_, rfl, ?_⟩
  · exact BitVec.eq_of_toNat_eq (by simp)
  · rw [State.stepAccesses, if_pos ⟨hr, hw⟩]; rfl

/-- Three distinct patterns tell the three conditions apart (R4, R15). -/
theorem Config.pattern_injective {cfg : Config} (h : Config.flagsDistinct cfg = true) {c d : Cond}
    (e : Config.pattern cfg c = Config.pattern cfg d) : c = d := by
  simp [Config.flagsDistinct] at h
  cases c <;> cases d <;> simp_all [Config.pattern]

/-- Settles O8: the registers stand before `pc` and the flags register, whose pattern tells the condition. -/
theorem registerFileHoldsTheState : Obligations.RegisterFileHoldsTheState := by
  intro s
  refine ⟨by simp [State.registerFile], fun r => ?_, by simp [State.registerFile], by simp [State.registerFile], ?_⟩
  · simp [State.registerFile, State.x, List.getElem?_append_left, r.isLt]
  · intro h t ht hc
    rw [State.condWord, State.condWord, ht] at hc
    exact Config.pattern_injective h hc

/-- Settles O1: the registers by `State.resetWith_x`, the other fields as `State.resetWith` lists them. -/
theorem resetValues : Obligations.ResetValues := fun cfg m i r =>
  ⟨State.resetWith_x cfg m i r, rfl, rfl, rfl, rfl, rfl, fun _ => rfl⟩

end Sys2Proof.Machine
end

section
/-! PROOFS. The memory family, content: a memory in canonical form is what it reads as (spec/20_memory.md R32, R33;
D16; log 18), and the fetch after a store (R41). -/

namespace Sys2Proof.Machine

/-! ### Equal contents are equal memories -/

@[simp] theorem Memory.lookup_cons_same (k : Nat) (v : Word) (m : Memory) : Memory.lookup k ((k, v) :: m) = v := by
  rw [Memory.lookup, if_pos rfl]

theorem Memory.lookup_cons_ne {j k : Nat} (h : j ≠ k) (v : Word) (m : Memory) :
    Memory.lookup k ((j, v) :: m) = Memory.lookup k m := by
  rw [Memory.lookup, if_neg h]

/-- Nothing is listed before the first cell: where two memories read the same at `j`, and the one lists `j`, the other's
first cell is not after `j`. -/
theorem Memory.head_le_of_lookup_eq {j k lo : Nat} {u v : Word} {m m' : Memory} (hu : u ≠ Memory.unlisted)
    (hm' : Memory.wfFrom lo ((k, v) :: m') = true)
    (h : Memory.lookup j ((j, u) :: m) = Memory.lookup j ((k, v) :: m')) : k ≤ j := by
  obtain ⟨-, h2, h3, h4⟩ := Memory.wfFrom_cons.mp hm'
  by_contra hjk
  have hk : Memory.wfFrom k ((k, v) :: m') = true := Memory.wfFrom_cons.mpr ⟨le_rfl, h2, h3, h4⟩
  rw [Memory.lookup_cons_same, Memory.lookup_below hk (Nat.lt_of_not_le hjk)] at h
  exact hu h

/-- Two memories in canonical form that read the same at every address are the same list, by induction on the first. -/
theorem Memory.eq_of_lookup_eq {m : Memory} : ∀ {m' : Memory} {lo lo' : Nat}, Memory.wfFrom lo m = true →
    Memory.wfFrom lo' m' = true → (∀ k < 65536, Memory.lookup k m = Memory.lookup k m') → m = m' := by
  induction m with
  | nil =>
    intro m' lo lo' _ hm' h
    cases m' with
    | nil => rfl
    | cons c m' =>
      obtain ⟨-, hk, hv, -⟩ := Memory.wfFrom_cons.mp hm'
      exact absurd ((h c.1 hk).trans (Memory.lookup_cons_same ..)).symm hv
  | cons c m ih =>
    obtain ⟨j, u⟩ := c
    intro m' lo lo' hm hm' h
    obtain ⟨-, hj, hu, tail⟩ := Memory.wfFrom_cons.mp hm
    cases m' with
    | nil => exact absurd ((Memory.lookup_cons_same ..).symm.trans (h j hj)) hu
    | cons c' m' =>
      obtain ⟨k, v⟩ := c'
      obtain ⟨-, hk, hv, tail'⟩ := Memory.wfFrom_cons.mp hm'
      obtain rfl : j = k := Nat.le_antisymm (Memory.head_le_of_lookup_eq hv hm (h k hk).symm)
        (Memory.head_le_of_lookup_eq hu hm' (h j hj))
      obtain rfl : u = v := by simpa using h j hj
      rw [ih tail tail' fun i hi => ?_]
      by_cases hij : i < j + 1
      · rw [Memory.lookup_below tail hij, Memory.lookup_below tail' hij]
      · simpa [Memory.lookup_cons_ne (show j ≠ i by omega)] using h i hi

/-- A memory in canonical form is determined by what it reads as (log 18). -/
theorem Memory.eq_of_read_eq {m m' : Memory} (hm : m.wf = true) (hm' : m'.wf = true)
    (h : ∀ a, m.read a = m'.read a) : m = m' := by
  refine Memory.eq_of_lookup_eq hm hm' fun k hk => ?_
  simpa [Memory.read, Nat.mod_eq_of_lt hk] using h (BitVec.ofNat 16 k)

/-- Settles O35: the read after a write is `Memory.read_write`, equality by induction (`Memory.eq_of_lookup_eq`). -/
theorem memoryIsItsContent : Obligations.MemoryIsItsContent :=
  ⟨fun _ a v b hm => Memory.read_write hm a v b, fun _ _ => Memory.eq_of_read_eq⟩

/-! ### The fetch after a store (R41) -/

/-- What a storing row does: its source register's word goes to its address (R104 to R106). -/
theorem exec_store {i : Instr} {s : State} {sr : RegSel} {a : Word} (hs : i.storeSource = some sr)
    (ha : i.storeAddress s = some a) : exec i s = .next (s.memWrite a (s.x sr)) := by
  cases i with
  | st | sti | str => cases hs; cases ha; rfl
  | addReg | addImm | andReg | andImm | not | br | jmp | jsr | jsrr | ld | ldi | lea | ldr | trap | rti | res | getc
    | out | puts | inp | putsp | halt | ret | nop => cases hs

/-- Settles O36: the state after the store still fetches, and at its `pc` it reads the word stored. -/
theorem fetchSeesTheStore : Obligations.FetchSeesTheStore := by
  intro s sr hr hw hm hs ha
  have stored : (s.advance.memWrite (s.pc + 1) (s.x sr)).fetch = s.x sr := by
    simp [State.fetch, State.memRead_memWrite (s := s.advance) hm]
  refine ⟨s.advance.memWrite (s.pc + 1) (s.x sr), (step_fetches hr hw).trans (exec_store hs ha), rfl, ?_⟩
  rw [step_fetches (s := s.advance.memWrite (s.pc + 1) (s.x sr)) hr hw, stored]

end Sys2Proof.Machine
end

section
/-! PROOFS. The memory family, accesses: on another memory that agrees at the listed reads an instruction does the same,
and makes the listed writes (spec/20_memory.md R38, R39). -/

namespace Sys2Proof.Machine

/-! ### Parts of an instruction on another memory -/

/-- How a part ends, the memory replaced. -/
def Flow.withMem (m : Memory) : Flow → Flow
  | .done s => .done (s.setMem m)
  | .raised s => .raised (s.setMem m)
  | .waits s => .waits (s.setMem m)
  | .endless => .endless

/-- The part does not use memory: on another one it ends in the same way, that memory left as it was. -/
def MemFree (k : State → Flow) : Prop := ∀ s m, k (s.setMem m) = (k s).withMem m

/-- The memory `m` holds the words of `s` at the reads of a list of accesses. -/
def AgreesAtReads (l : List Access) (s : State) (m : Memory) : Prop :=
  ∀ a, Access.read a ∈ l → m.read a = s.memRead a

/-- Statement order: the rest need only end in the same way from where the part before it went on. -/
theorem Flow.withMem_andThen {f : Flow} {k : State → Flow} {m : Memory}
    (hk : ∀ t, f = .done t → k (t.setMem m) = (k t).withMem m) :
    (f.withMem m).andThen k = (f.andThen k).withMem m := by
  cases f with
  | done t => exact hk t rfl
  | raised t | waits t | endless => rfl

theorem MemFree.done {f : State → State} (h : ∀ s m, f (s.setMem m) = (f s).setMem m) :
    MemFree fun s => .done (f s) := fun s m => congrArg Flow.done (h s m)

theorem MemFree.andThen {f k : State → Flow} (hf : MemFree f) (hk : MemFree k) :
    MemFree fun s => (f s).andThen k := fun s m =>
  (congrArg (Flow.andThen · k) (hf s m)).trans (Flow.withMem_andThen fun t _ => hk t m)

theorem hostOut_memFree (b : Byte) : MemFree (hostOut b) := by
  intro s m
  simp only [hostOut, State.setMem_sinkRoom]
  split <;> rfl

theorem hostOutAll_memFree (bs : List Byte) : MemFree (hostOutAll bs) := by
  induction bs with
  | nil => exact fun _ _ => rfl
  | cons b bs ih => exact (hostOut_memFree b).andThen ih

theorem hostFlush_memFree : MemFree fun s => .done (hostFlush s) := .done fun _ _ => rfl

/-- A part that keeps the replacement, then the flush point that ends OUT, PUTS and PUTSP. -/
theorem Flow.withMem_andThen_hostFlush {f g : Flow} {m : Memory} (h : g = f.withMem m) :
    (g.andThen fun t => .done (hostFlush t)) = (f.andThen fun t => .done (hostFlush t)).withMem m := by
  subst h; exact Flow.withMem_andThen fun t _ => hostFlush_memFree t m

theorem hostIn_memFree (p : WaitPoint) {k : Byte → State → Flow} (hk : ∀ b, MemFree (k b)) :
    MemFree (hostIn p k) := by
  intro s m
  simp only [hostIn, State.setMem_input]
  split
  · next b more _ => exact hk b ((s.setInput more).setWaiting none) m
  all_goals rfl

/-- The reading services do not use memory (R124, R127). -/
theorem resume_memFree (p : WaitPoint) : MemFree (resume p) := by
  have write : ∀ b : Byte, MemFree fun s => .done (s.writeRegSetcc 0#3 (zext b)) := fun _ => .done fun _ _ => rfl
  cases p with
  | getc => exact hostIn_memFree .getc write
  | inp => exact hostIn_memFree .inp fun b => (hostOut_memFree b).andThen (write b)

/-! ### The string loops (R126, R128) -/

/-- Sending does not change what memory holds. -/
theorem Flow.All.memRead_of_done {s t : State} {f : Flow} (h : f.All (Sent s)) (e : f = .done t) (a : Word) :
    t.memRead a = s.memRead a := by
  subst e; exact State.memRead_eq_of_mem (Sent.mem h) a

theorem read_mem_putsReads (n : Nat) (a : Word) (s : State) : Access.read a ∈ putsReads (n + 1) a s := by
  simp [putsReads]

theorem putsReads_char {n : Nat} {a : Word} {s t : State} (h : s.memRead a ≠ 0x0000#16)
    (e : hostOutAll (putsChar (s.memRead a)) s = .done t) :
    putsReads (n + 1) a s = .read a :: putsReads n (a + 1) t := by
  rw [putsReads, if_neg h, e]

/-- PUTS's loop uses memory at its listed reads alone, by induction on the rounds. -/
theorem putsLoop_setMem {m : Memory} (fuel : Nat) : ∀ (a : Word) (s : State),
    AgreesAtReads (putsReads fuel a s) s m → putsLoop fuel a (s.setMem m) = (putsLoop fuel a s).withMem m := by
  induction fuel with
  | zero => exact fun _ _ _ => rfl
  | succ n ih =>
    intro a s h
    have ha : (s.setMem m).memRead a = s.memRead a := h a (read_mem_putsReads n a s)
    by_cases hz : s.memRead a = 0x0000#16
    · rw [putsLoop_terminator hz, putsLoop_terminator (ha.trans hz)]; rfl
    · rw [putsLoop_char hz, putsLoop_char (by rwa [ha]), ha, hostOutAll_memFree]
      refine Flow.withMem_andThen fun t e => ih _ t fun b hb => ?_
      rw [(hostOutAll_sent _ s).memRead_of_done e]
      exact h b (by rw [putsReads_char hz e]; exact List.mem_cons_of_mem _ hb)

theorem read_mem_putspReads (n : Nat) (a : Word) (s : State) : Access.read a ∈ putspReads (n + 1) a s := by
  simp [putspReads]

theorem putspReads_word {n : Nat} {a : Word} {s t u : State} (hl : lowByte (s.memRead a) ≠ 0x00#8)
    (hh : highByte (s.memRead a) ≠ 0x00#8) (e : hostOut (lowByte (s.memRead a)) s = .done t)
    (f : hostOut (highByte (s.memRead a)) t = .done u) :
    putspReads (n + 1) a s = .read a :: putspReads n (a + 1) u := by
  simp [putspReads, hl, hh, hostOutAll, e, f]

/-- PUTSP's loop uses memory at its listed reads alone, by induction on the rounds. -/
theorem putspLoop_setMem {m : Memory} (fuel : Nat) : ∀ (a : Word) (s : State),
    AgreesAtReads (putspReads fuel a s) s m → putspLoop fuel a (s.setMem m) = (putspLoop fuel a s).withMem m := by
  induction fuel with
  | zero => exact fun _ _ _ => rfl
  | succ n ih =>
    intro a s h
    have ha : (s.setMem m).memRead a = s.memRead a := h a (read_mem_putspReads n a s)
    by_cases hl : lowByte (s.memRead a) = 0x00#8
    · rw [putspLoop_low_zero hl, putspLoop_low_zero (by rwa [ha])]; rfl
    by_cases hh : highByte (s.memRead a) = 0x00#8
    · rw [putspLoop_high_zero hl hh, putspLoop_high_zero (by rwa [ha]) (by rwa [ha]), ha]
      exact hostOut_memFree _ s m
    · rw [putspLoop_word hl hh, putspLoop_word (by rwa [ha]) (by rwa [ha]), ha, hostOut_memFree]
      refine Flow.withMem_andThen fun t e => ?_
      rw [hostOut_memFree]
      refine Flow.withMem_andThen fun u f => ih _ u fun b hb => ?_
      rw [(hostOut_sent _ t).memRead_of_done f, (hostOut_sent _ s).memRead_of_done e]
      exact h b (by rw [putspReads_word hl hh e f]; exact List.mem_cons_of_mem _ hb)

/-! ### The lists hold reads alone for a TRAP -/

theorem applyWrites_of_reads {l : List Access} {m : Memory} (h : ∀ x ∈ l, ∃ a, x = .read a) : applyWrites l m = m := by
  induction l with
  | nil => rfl
  | cons x l ih =>
    obtain ⟨⟨a, rfl⟩, hl⟩ := List.forall_mem_cons.mp h
    exact ih hl

theorem putsReads_reads (fuel : Nat) : ∀ (a : Word) (s : State), ∀ x ∈ putsReads fuel a s, ∃ b, x = .read b := by
  induction fuel with
  | zero => simp [putsReads]
  | succ n ih =>
    intro a s
    refine List.forall_mem_cons.mpr ⟨⟨a, rfl⟩, ?_⟩
    split
    · simp
    · split
      · exact ih _ _
      · simp

theorem putspReads_reads (fuel : Nat) : ∀ (a : Word) (s : State), ∀ x ∈ putspReads fuel a s, ∃ b, x = .read b := by
  induction fuel with
  | zero => simp [putspReads]
  | succ n ih =>
    intro a s
    refine List.forall_mem_cons.mpr ⟨⟨a, rfl⟩, ?_⟩
    split
    · simp
    · split
      · exact ih _ _
      · simp

/-- No service writes memory (R38). -/
theorem applyWrites_trapReads (v : BitVec 8) (s : State) (m : Memory) : applyWrites (trapReads v s) m = m := by
  refine applyWrites_of_reads ?_
  unfold trapReads
  split
  · exact putsReads_reads _ _ s
  · split
    · exact putspReads_reads _ _ s
    · simp

/-! ### The trap table and exec -/

/-- Every service, and the invalid vectors, use memory at the listed reads alone (R38, R120). -/
theorem trapTable_setMem {v : BitVec 8} {s : State} {m : Memory} (h : AgreesAtReads (trapReads v s) s m) :
    trapTable v (s.setMem m) = (trapTable v s).withMem m := by
  by_cases hv : isServiceVector v = true
  · rcases isServiceVector_cases hv with rfl | rfl | rfl | rfl | rfl | rfl
    · exact resume_memFree .getc s m
    · exact Flow.withMem_andThen_hostFlush (hostOut_memFree _ s m)
    · exact Flow.withMem_andThen_hostFlush (putsLoop_setMem _ _ s h)
    · exact (hostOutAll_memFree _).andThen (fun t n => resume_memFree .inp (hostFlush t) n) s m
    · exact Flow.withMem_andThen_hostFlush (putspLoop_setMem _ _ s h)
    · exact (hostOutAll_memFree _).andThen (.done fun _ _ => rfl) s m
  · rw [trapTable_invalid (by simpa using hv), trapTable_invalid (by simpa using hv)]; rfl

/-- An outcome, the memory of its next state replaced. -/
def outcomeWithMem (m : Memory) : Host.Outcome State Fault Refusal → Host.Outcome State Fault Refusal
  | .next t => .next (t.setMem m)
  | .fault f => .fault f
  | .refused r => .refused r

theorem Flow.outcome_withMem (f : Flow) (m : Memory) : (f.withMem m).outcome = outcomeWithMem m f.outcome := by
  cases f <;> rfl

theorem link_setMem (s : State) (m : Memory) : link (s.setMem m) = (link s).setMem m := rfl

/-- The data accesses of a TRAP row are its service's, begun after the link write (R38). -/
theorem dataAccesses_of_trapVector {i : Instr} {v : BitVec 8} (h : trapVector i = some v) (s : State) :
    dataAccesses i s = trapReads v (link s) := by
  cases i <;> simp [trapVector] at h <;> subst h <;> rfl

theorem exec_br_taken {n z p : Bool} {s : State} (h : brTaken n z p s.cond = true) (off : BitVec 9) :
    exec (.br n z p off) s = .next (s.setPc (s.pcRelative off)) := congrArg Host.Outcome.next (if_pos h)

theorem exec_br_not_taken {n z p : Bool} {s : State} (h : ¬ brTaken n z p s.cond = true) (off : BitVec 9) :
    exec (.br n z p off) s = .next s := congrArg Host.Outcome.next (if_neg h)

/-- On another memory that agrees at the listed reads, a row that is no TRAP does the same and makes the listed writes. -/
theorem exec_setMem_of_no_trap {i : Instr} (hv : trapVector i = none) {s : State} {m : Memory}
    (h : AgreesAtReads (dataAccesses i s) s m) :
    exec i (s.setMem m) = outcomeWithMem (applyWrites (dataAccesses i s) m) (exec i s) := by
  cases i with
  | addReg | addImm | andReg | andImm | not | lea | jmp | jsr | jsrr | ret | rti | res | st | str => rfl
  | nop off => rw [exec_nop, exec_nop]; rfl
  | br n z p off =>
    by_cases taken : brTaken n z p s.cond = true
    · rw [exec_br_taken taken, exec_br_taken (s := s.setMem m) taken]; rfl
    · rw [exec_br_not_taken taken, exec_br_not_taken (s := s.setMem m) taken]; rfl
  | ld dr off =>
    have word := h (s.pcRelative off) (List.mem_singleton_self _)
    exact congrArg (fun v => Host.Outcome.next ((s.setMem m).writeRegSetcc dr v)) word
  | ldr dr baseR off =>
    have word := h (s.basePlusOffset baseR off) (List.mem_singleton_self _)
    exact congrArg (fun v => Host.Outcome.next ((s.setMem m).writeRegSetcc dr v)) word
  | ldi dr off =>
    have pointer : m.read (s.pcRelative off) = s.indirect off := h (s.pcRelative off) (by simp [dataAccesses])
    have word := h (s.indirect off) (by simp [dataAccesses])
    exact congrArg (fun v => Host.Outcome.next ((s.setMem m).writeRegSetcc dr v))
      ((congrArg m.read pointer).trans word)
  | sti sr off =>
    have pointer : m.read (s.pcRelative off) = s.indirect off := h (s.pcRelative off) (by simp [dataAccesses])
    exact congrArg (fun a => Host.Outcome.next ((s.setMem m).memWrite a (s.x sr))) pointer
  | trap | getc | out | puts | inp | putsp | halt => cases hv

theorem exec_setMem {i : Instr} {s : State} {m : Memory} (h : AgreesAtReads (dataAccesses i s) s m) :
    exec i (s.setMem m) = outcomeWithMem (applyWrites (dataAccesses i s) m) (exec i s) := by
  cases hv : trapVector i with
  | none => exact exec_setMem_of_no_trap hv h
  | some v =>
    rw [dataAccesses_of_trapVector hv] at h ⊢
    have linked : AgreesAtReads (trapReads v (link s)) (link s) m := h
    rw [exec_trapVector hv, exec_trapVector hv, link_setMem, trapTable_setMem linked, Flow.outcome_withMem,
      applyWrites_trapReads]

/-- Settles O58, by `exec_setMem`: row by row, and for the string services by induction on the rounds. -/
theorem listedAccessesAreAllMemoryUse : Obligations.ListedAccessesAreAllMemoryUse := by
  intro i s m h
  have e := exec_setMem h
  cases he : exec i s with
  | next t => rwa [he] at e
  | fault f => rwa [he] at e
  | refused r => rwa [he] at e

end Sys2Proof.Machine
end

section
/-! PROOFS. The encoding family, codec: a field read, put in its place and written (spec/30_encoding.md R56, R58, R59). -/

namespace Sys2Proof

/-! ### Fields and their places -/

/-- A field put back in its place is the word under the field's mask. -/
theorem place_field (lo n : Nat) (w : Word) : place lo (field lo n w) = w &&& fieldMask lo n := by
  apply word_ext; intro k hk
  rw [getLsbD_place, getLsbD_field, BitVec.getLsbD_and, getLsbD_fieldMask]
  by_cases hlo : lo ≤ k
  · rw [show lo + (k - lo) = k by omega, show decide (k - lo < n) = decide (k < lo + n) by simp; omega]
    simp [hk, hlo, Bool.and_comm]
  · simp [hlo]

/-- The field of a word that holds a value in the field's place alone. -/
theorem field_place {lo n : Nat} (h : lo + n ≤ 16) (v : BitVec n) : field lo n (place lo v) = v := by
  apply BitVec.eq_of_getLsbD_eq; intro k hk
  rw [getLsbD_field, getLsbD_place]
  simp [hk, show lo + k < 16 by omega]

/-- A field does not see a value in a place that does not meet it. -/
theorem field_place_of_disjoint {lo n lo' n' : Nat} (h : lo + n ≤ lo' ∨ lo' + n' ≤ lo) (v : BitVec n') :
    field lo n (place lo' v) = 0 := by
  apply BitVec.eq_of_getLsbD_eq; intro k hk
  rw [getLsbD_field, getLsbD_place]
  rcases h with h | h
  · simp [show ¬ lo' ≤ lo + k by omega]
  · simp [BitVec.getLsbD_of_ge v (lo + k - lo') (by omega)]

theorem field_or (lo n : Nat) (v w : Word) : field lo n (v ||| w) = field lo n v ||| field lo n w := by
  apply BitVec.eq_of_getLsbD_eq; intro k hk
  simp [getLsbD_field, Bool.and_or_distrib_left]

/-- One bit of a word, as a field. -/
theorem field_one (lo : Nat) (w : Word) : field lo 1 w = BitVec.ofBool (w.getLsbD lo) := by
  apply BitVec.eq_of_getLsbD_eq; intro k hk
  obtain rfl : k = 0 := by omega
  rw [getLsbD_field]; simp

/-! ### A field written (R58) -/

/-- Inside its range a written field holds the value, outside it the word is kept. -/
theorem getLsbD_withField (lo n : Nat) (w v : Word) {k : Nat} (hk : k < 16) :
    (withField lo n w v).getLsbD k = if lo ≤ k ∧ k < lo + n then v.getLsbD (k - lo) else w.getLsbD k := by
  simp only [withField, BitVec.getLsbD_or, BitVec.getLsbD_and, BitVec.getLsbD_not, BitVec.getLsbD_shiftLeft,
    getLsbD_fieldMask, hk]
  by_cases hlo : lo ≤ k <;> by_cases hhi : k < lo + n <;> simp [hlo, hhi]

/-- A field reads back what was written to it, cut to its width (D4). -/
theorem field_withField {lo n : Nat} (h : lo + n ≤ 16) (w v : Word) : field lo n (withField lo n w v) = v.setWidth n := by
  apply BitVec.eq_of_getLsbD_eq; intro k hk
  rw [getLsbD_field, getLsbD_withField _ _ _ _ (by omega), if_pos (by omega)]
  simp [hk]

/-- Settles O10, by the bits of a written field. -/
theorem fieldWriteReadsBack : Obligations.FieldWriteReadsBack := by
  intro lo n w v h
  refine ⟨by rw [field_withField h, BitVec.toNat_setWidth], fun i hi hout => ?_⟩
  rw [getLsbD_withField lo n w v hi, if_neg (by omega)]

/-! ### Extracting and re-inserting (R59) -/

/-- Writing back a word's own field takes the word's bits in the range. -/
theorem getLsbD_withField_field (lo n : Nat) (acc w : Word) {k : Nat} (hk : k < 16) :
    (withField lo n acc ((field lo n w).setWidth 16)).getLsbD k =
      if lo ≤ k ∧ k < lo + n then w.getLsbD k else acc.getLsbD k := by
  rw [getLsbD_withField lo n _ _ hk]
  split
  · next h =>
    rw [BitVec.getLsbD_setWidth, getLsbD_field, Nat.add_sub_cancel' h.1]
    simp [show k - lo < 16 by omega, show k - lo < n by omega]
  · rfl

/-- The range of a field holds bit `k`. -/
def FieldSpec.Covers (s : FieldSpec) (k : Nat) : Prop := s.lo ≤ k ∧ k < s.lo + s.width

/-- Re-inserting a word's fields takes the word's bits wherever a field covers, by induction on the ranges. -/
theorem getLsbD_insertFields (w : Word) {k : Nat} (hk : k < 16) (ss : List FieldSpec) : ∀ acc : Word,
    (∃ s ∈ ss, s.Covers k) ∨ acc.getLsbD k = w.getLsbD k →
    (insertFields ss (ss.map fun s => (field s.lo s.width w).setWidth 16) acc).getLsbD k = w.getLsbD k := by
  induction ss with
  | nil => simp [insertFields]
  | cons s ss ih =>
    intro acc h
    refine ih _ ?_
    rw [getLsbD_withField_field _ _ _ _ hk]
    split
    · exact .inr rfl
    · next hs =>
      obtain ⟨t, ht, hc⟩ | h := h
      · obtain rfl | ht := List.mem_cons.mp ht
        · exact absurd hc hs
        · exact .inl ⟨t, ht, hc⟩
      · exact .inr h

/-- The fields of every format, pads among them, leave no bit out (R54, D4). -/
theorem Format.layout_covers (f : Format) : ∀ k < 16, ∃ s ∈ f.layout, s.Covers k := by
  unfold FieldSpec.Covers
  cases f <;> decide

/-- Extracting under any format and re-inserting under it is the identity (R59). -/
theorem Format.assemble_extract (f : Format) (w : Word) : f.assemble (f.extract w) = w :=
  word_ext fun k hk => getLsbD_insertFields w hk f.layout 0 (.inl (f.layout_covers k hk))

/-- Settles O11: under every format, so under the one of the word's own row. -/
theorem codecRoundTrip : Obligations.CodecRoundTrip := fun w => Format.assemble_extract _ w

/-! ### Sign extension (R56) -/

/-- The number of a sign-extended field, for every width that fits a word. -/
theorem sext_toNat {n : Nat} (hn : n ≤ 16) (v : BitVec n) : (Machine.sext v).toNat = Machine.sextNumber v := by
  have hv : v.toNat < 2 ^ n := v.isLt
  have hpow : 2 ^ n ≤ 2 ^ 16 := Nat.pow_le_pow_right (by decide) hn
  have hmsb : v.msb = true ↔ ¬ v.toNat < 2 ^ (n - 1) := by rw [BitVec.msb_eq_decide]; simp
  rw [Machine.sext, BitVec.toNat_signExtend, BitVec.toNat_setWidth, Nat.mod_eq_of_lt (by omega), Machine.sextNumber]
  by_cases hneg : v.toNat < 2 ^ (n - 1)
  · simp [hneg, show ¬ v.msb = true from fun e => hmsb.mp e hneg]
  · rw [if_pos (hmsb.mpr hneg), if_neg hneg]; omega

/-- Settles O9: the bits are those of `BitVec.signExtend`, the number is `sext_toNat`, for every width up to 16. -/
theorem signExtensionIsBitExact : Obligations.SignExtensionIsBitExact := by
  intro n hn v
  have hle : n ≤ 16 := by omega
  refine ⟨fun i hi => ?_, fun i hi hge => ?_, sext_toNat hle v⟩
  · rw [Machine.sext, BitVec.getLsbD_signExtend, if_pos hi]; simp [show i < 16 by omega]
  · rw [Machine.sext, BitVec.getLsbD_signExtend, if_neg (by omega), BitVec.msb_eq_getLsbD_last]; simp [hi]

end Sys2Proof
end

section
/-! PROOFS. The encoding family, decoder: the word of a decoded instruction, and the rows of the opcode table
(spec/30_encoding.md R59, R62, R63). -/

namespace Sys2Proof

/-! ### A word from its fields (R59) -/

section PlaceFields
variable (l₁ l₂ l₃ l₄ n₁ n₂ n₃ n₄ : Nat) (w : Word)

theorem place_fields2 : place l₁ (field l₁ n₁ w) ||| place l₂ (field l₂ n₂ w) =
    w &&& (fieldMask l₁ n₁ ||| fieldMask l₂ n₂) := by
  rw [place_field, place_field, BitVec.and_or_distrib_left]

theorem place_fields3 : place l₁ (field l₁ n₁ w) ||| place l₂ (field l₂ n₂ w) ||| place l₃ (field l₃ n₃ w) =
    w &&& (fieldMask l₁ n₁ ||| fieldMask l₂ n₂ ||| fieldMask l₃ n₃) := by
  rw [place_fields2, place_field, ← BitVec.and_or_distrib_left]

theorem place_fields4 : place l₁ (field l₁ n₁ w) ||| place l₂ (field l₂ n₂ w) ||| place l₃ (field l₃ n₃ w) |||
    place l₄ (field l₄ n₄ w) = w &&& (fieldMask l₁ n₁ ||| fieldMask l₂ n₂ ||| fieldMask l₃ n₃ ||| fieldMask l₄ n₄) := by
  rw [place_fields3, place_field, ← BitVec.and_or_distrib_left]

end PlaceFields

/-- The encoder gives a word back whose fixed bits are the row's and whose other bits are the operands. -/
theorem encode_of_bits {i : Instr} {w fixed free : Word} (hp : i.row.pattern = w &&& fixed)
    (ho : i.operandBits = w &&& free) (hall : fixed ||| free = BitVec.allOnes 16) : encode i = w := by
  rw [encode, hp, ho, ← BitVec.and_or_distrib_left, hall, BitVec.and_allOnes]

/-- A row that the opcode alone fixes. -/
theorem encode_of_opcode {i : Instr} {w free : Word} {o : BitVec 4} (h : field 12 4 w = o)
    (hp : i.row.pattern = place 12 o) (ho : i.operandBits = w &&& free)
    (hall : fieldMask 12 4 ||| free = BitVec.allOnes 16) : encode i = w :=
  encode_of_bits (hp.trans (h ▸ place_field 12 4 w)) ho hall

/-- A row that the opcode and one further field fix. -/
theorem encode_of_opcode_field {i : Instr} {w free : Word} {o : BitVec 4} {lo n : Nat} {v : BitVec n}
    (h : field 12 4 w = o) (hv : field lo n w = v) (hp : i.row.pattern = place 12 o ||| place lo v)
    (ho : i.operandBits = w &&& free) (hall : fieldMask 12 4 ||| fieldMask lo n ||| free = BitVec.allOnes 16) :
    encode i = w :=
  encode_of_bits (hp.trans (by rw [← h, ← hv, place_fields2])) ho hall

/-- A row that the opcode and a mode bit fix (R55). -/
theorem encode_of_opcode_bit {i : Instr} {w free : Word} {o : BitVec 4} {lo : Nat} {b : Bool} (h : field 12 4 w = o)
    (hb : w.getLsbD lo = b) (hp : i.row.pattern = place 12 o ||| place lo (BitVec.ofBool b))
    (ho : i.operandBits = w &&& free) (hall : fieldMask 12 4 ||| fieldMask lo 1 ||| free = BitVec.allOnes 16) :
    encode i = w :=
  encode_of_opcode_field h (by rw [field_one, hb]) hp ho hall

/-! ### Opcode 15 (R120, R121) -/

/-- The row of a TRAP word by its vector: one of the six services, or TRAP. -/
def Instr.ofVector (pad : BitVec 4) (v : BitVec 8) : Instr :=
  if v = 0x20#8 then .getc pad
  else if v = 0x21#8 then .out pad
  else if v = 0x22#8 then .puts pad
  else if v = 0x23#8 then .inp pad
  else if v = 0x24#8 then .putsp pad
  else if v = 0x25#8 then .halt pad
  else .trap pad v

theorem decode_trap {w : Word} {v : BitVec 8} (h : field 12 4 w = 15#4) (hv : field 0 8 w = v) :
    decode w = .ofVector (field 8 4 w) v := by
  subst hv; exact decode_opcode h

theorem Instr.ofVector_invalid {v : BitVec 8} (h : isServiceVector v = false) (pad : BitVec 4) :
    Instr.ofVector pad v = .trap pad v := by
  obtain ⟨h0, h1, h2, h3, h4, h5⟩ := Machine.not_isServiceVector h
  simp [Instr.ofVector, h0, h1, h2, h3, h4, h5]

/-! ### Decode, then encode (R59) -/

theorem encode_decodeBr {w : Word} (h : field 12 4 w = 0#4) : encode (decodeBr w) = w := by
  unfold decodeBr
  split
  · next hz => exact encode_of_opcode_field h hz rfl (place_field 0 9 w) (by decide)
  · have operands := place_fields4 11 10 9 0 1 1 1 9 w
    simp only [field_one] at operands
    exact encode_of_opcode h rfl operands (by decide)

theorem encode_decodeAdd {w : Word} (h : field 12 4 w = 1#4) : encode (decodeAdd w) = w := by
  cases h5 : w.getLsbD 5 with
  | true => rw [decodeAdd, if_pos h5]; exact encode_of_opcode_bit h h5 rfl (place_fields3 9 6 0 3 3 5 w) (by decide)
  | false =>
    rw [decodeAdd, if_neg (ne_true_of_eq_false h5)]
    exact encode_of_opcode_bit h h5 rfl (place_fields4 9 6 3 0 3 3 2 3 w) (by decide)

theorem encode_decodeAnd {w : Word} (h : field 12 4 w = 5#4) : encode (decodeAnd w) = w := by
  cases h5 : w.getLsbD 5 with
  | true => rw [decodeAnd, if_pos h5]; exact encode_of_opcode_bit h h5 rfl (place_fields3 9 6 0 3 3 5 w) (by decide)
  | false =>
    rw [decodeAnd, if_neg (ne_true_of_eq_false h5)]
    exact encode_of_opcode_bit h h5 rfl (place_fields4 9 6 3 0 3 3 2 3 w) (by decide)

theorem encode_decodeJsr {w : Word} (h : field 12 4 w = 4#4) : encode (decodeJsr w) = w := by
  cases h11 : w.getLsbD 11 with
  | true => rw [decodeJsr, if_pos h11]; exact encode_of_opcode_bit h h11 rfl (place_field 0 11 w) (by decide)
  | false =>
    rw [decodeJsr, if_neg (ne_true_of_eq_false h11)]
    exact encode_of_opcode_bit h h11 rfl (place_fields3 9 6 0 2 3 6 w) (by decide)

theorem encode_decodeJmp {w : Word} (h : field 12 4 w = 12#4) : encode (decodeJmp w) = w := by
  unfold decodeJmp
  split
  · next h7 => exact encode_of_opcode_field h h7 rfl (place_fields2 9 0 3 6 w) (by decide)
  · exact encode_of_opcode h rfl (place_fields3 9 6 0 3 3 6 w) (by decide)

theorem encode_ofVector {w : Word} (h : field 12 4 w = 15#4) : encode (.ofVector (field 8 4 w) (field 0 8 w)) = w := by
  by_cases hs : isServiceVector (field 0 8 w) = true
  · rcases Machine.isServiceVector_cases hs with hv | hv | hv | hv | hv | hv <;> rw [hv] <;>
      exact encode_of_opcode_field h hv rfl (place_field 8 4 w) (by decide)
  · rw [Instr.ofVector_invalid (by simpa using hs)]
    exact encode_of_opcode h rfl (place_fields2 8 0 4 8 w) (by decide)

/-- Decoding then encoding gives the word back, opcode by opcode. -/
theorem encode_decode (w : Word) : encode (decode w) = w := by
  rcases opcode_cases (field 12 4 w) with h | h | h | h | h | h | h | h | h | h | h | h | h | h | h | h
  all_goals rw [decode_opcode h]
  · exact encode_decodeBr h
  · exact encode_decodeAdd h
  · exact encode_of_opcode h rfl (place_fields2 9 0 3 9 w) (by decide)
  · exact encode_of_opcode h rfl (place_fields2 9 0 3 9 w) (by decide)
  · exact encode_decodeJsr h
  · exact encode_decodeAnd h
  · exact encode_of_opcode h rfl (place_fields3 9 6 0 3 3 6 w) (by decide)
  · exact encode_of_opcode h rfl (place_fields3 9 6 0 3 3 6 w) (by decide)
  · exact encode_of_opcode h rfl (place_field 0 12 w) (by decide)
  · exact encode_of_opcode h rfl (place_fields3 9 6 0 3 3 6 w) (by decide)
  · exact encode_of_opcode h rfl (place_fields2 9 0 3 9 w) (by decide)
  · exact encode_of_opcode h rfl (place_fields2 9 0 3 9 w) (by decide)
  · exact encode_decodeJmp h
  · exact encode_of_opcode h rfl (place_field 0 12 w) (by decide)
  · exact encode_of_opcode h rfl (place_fields2 9 0 3 9 w) (by decide)
  · exact encode_ofVector h

/-! ### The decoder answers well-formed instructions (R62) -/

theorem decodeBr_wellFormed (w : Word) : (decodeBr w).WellFormed = true := by
  unfold decodeBr
  split
  · rfl
  · next hz =>
    by_contra hn
    obtain ⟨⟨hn, hz'⟩, hp⟩ : (w.getLsbD 11 = false ∧ w.getLsbD 10 = false) ∧ w.getLsbD 9 = false := by
      simpa only [Instr.WellFormed, Bool.not_eq_true, Bool.or_eq_false_iff] using hn
    refine hz (BitVec.eq_of_getLsbD_eq fun k hk => ?_)
    rw [getLsbD_field]
    obtain rfl | rfl | rfl : k = 0 ∨ k = 1 ∨ k = 2 := by omega
    · rw [hp]; rfl
    · rw [hz']; rfl
    · rw [hn]; rfl

theorem decodeJmp_wellFormed (w : Word) : (decodeJmp w).WellFormed = true := by
  unfold decodeJmp
  split
  · rfl
  · next h7 => exact bne_iff_ne.mpr h7

theorem Instr.ofVector_wellFormed (pad : BitVec 4) (v : BitVec 8) : (Instr.ofVector pad v).WellFormed = true := by
  cases hs : isServiceVector v with
  | true => rcases Machine.isServiceVector_cases hs with rfl | rfl | rfl | rfl | rfl | rfl <;> rfl
  | false => rw [Instr.ofVector_invalid hs]; simp [Instr.WellFormed, hs]

theorem decodeAdd_wellFormed (w : Word) : (decodeAdd w).WellFormed = true := by unfold decodeAdd; split <;> rfl

theorem decodeAnd_wellFormed (w : Word) : (decodeAnd w).WellFormed = true := by unfold decodeAnd; split <;> rfl

theorem decodeJsr_wellFormed (w : Word) : (decodeJsr w).WellFormed = true := by unfold decodeJsr; split <;> rfl

/-- Every word decodes to its own constructor: three opcodes have rows in `aliasRows` too (log 19). -/
theorem decode_wellFormed (w : Word) : (decode w).WellFormed = true := by
  rcases opcode_cases (field 12 4 w) with h | h | h | h | h | h | h | h | h | h | h | h | h | h | h | h <;>
    rw [decode_opcode h]
  · exact decodeBr_wellFormed w
  · exact decodeAdd_wellFormed w
  iterate 2 rfl
  · exact decodeJsr_wellFormed w
  · exact decodeAnd_wellFormed w
  iterate 6 rfl
  · exact decodeJmp_wellFormed w
  iterate 2 rfl
  · exact Instr.ofVector_wellFormed (field 8 4 w) (field 0 8 w)

/-- Settles O12, opcode by opcode: the row's fixed bits and the operands are all the bits of the word. -/
theorem encodeOfDecodeIsIdentity : Obligations.EncodeOfDecodeIsIdentity := fun w => ⟨encode_decode w, decode_wellFormed w⟩

/-! ### The words of a row (R63) -/

/-- A row fixed by the opcode and one further field selects the words with both. -/
theorem Row.selects_iff {r : Row} {o : BitVec 4} {lo n : Nat} {v : BitVec n} (hn : lo + n ≤ 12)
    (hm : r.mask = fieldMask 12 4 ||| fieldMask lo n) (hp : r.pattern = place 12 o ||| place lo v) {w : Word} :
    r.selects w = true ↔ field 12 4 w = o ∧ field lo n w = v := by
  have opcode : ∀ a (b : BitVec n), field 12 4 (place 12 a ||| place lo b) = a := fun a b => by
    rw [field_or, field_place (by decide), field_place_of_disjoint (.inr hn)]; exact BitVec.or_zero
  have other : ∀ (a : BitVec 4) b, field lo n (place 12 a ||| place lo b) = b := fun a b => by
    rw [field_or, field_place (by omega), field_place_of_disjoint (.inl hn)]; exact BitVec.zero_or
  rw [Row.selects, beq_iff_eq, hm, hp, ← place_fields2]
  refine ⟨fun h => ⟨?_, ?_⟩, fun ⟨h, h'⟩ => by rw [h, h']⟩
  · rw [← opcode (field 12 4 w) (field lo n w), h, opcode]
  · rw [← other (field 12 4 w) (field lo n w), h, other]

/-- The encoder's word is a word of the instruction's row (R63). -/
theorem selects_encode (i : Instr) : i.row.selects (encode i) = true := by
  cases i with
  | addReg => exact Laws.EncodedRow.addReg ..
  | addImm => exact Laws.EncodedRow.addImm ..
  | andReg => exact Laws.EncodedRow.andReg ..
  | andImm => exact Laws.EncodedRow.andImm ..
  | not => exact Laws.EncodedRow.not ..
  | br => exact Laws.EncodedRow.br ..
  | jmp => exact Laws.EncodedRow.jmp ..
  | jsr => exact Laws.EncodedRow.jsr ..
  | jsrr => exact Laws.EncodedRow.jsrr ..
  | ld => exact Laws.EncodedRow.ld ..
  | ldi => exact Laws.EncodedRow.ldi ..
  | lea => exact Laws.EncodedRow.lea ..
  | st => exact Laws.EncodedRow.st ..
  | sti => exact Laws.EncodedRow.sti ..
  | ldr => exact Laws.EncodedRow.ldr ..
  | str => exact Laws.EncodedRow.str ..
  | trap => exact Laws.EncodedRow.trap ..
  | rti => exact Laws.EncodedRow.rti ..
  | res => exact Laws.EncodedRow.res ..
  | getc => exact Laws.EncodedRow.getc ..
  | out => exact Laws.EncodedRow.out ..
  | puts => exact Laws.EncodedRow.puts ..
  | inp => exact Laws.EncodedRow.inp ..
  | putsp => exact Laws.EncodedRow.putsp ..
  | halt => exact Laws.EncodedRow.halt ..
  | ret => exact Laws.EncodedRow.ret ..
  | nop => exact Laws.EncodedRow.nop ..

/-- The decoder's instruction is of a row that selects the word. -/
theorem selects_decode (w : Word) : (decode w).row.selects w = true := by
  have h := selects_encode (decode w)
  rwa [encode_decode] at h

/-! ### The core rows (R63) -/

/-- The bits by which the core rows differ: the opcode and the two mode bits (R52, R55). -/
def keyMask : Word := fieldMask 12 4 ||| fieldMask 11 1 ||| fieldMask 5 1

theorem Row.selects_key {r : Row} (hr : r ∈ coreRows) (w : Word) : r.selects w = r.selects (w &&& keyMask) := by
  have hmask : ∀ r ∈ coreRows, keyMask &&& r.mask = r.mask := by decide
  rw [Row.selects, Row.selects, BitVec.and_assoc, hmask r hr]

/-- Each of the 64 keys is of exactly one core row. -/
theorem coreRows_key (o : BitVec 4) (b c : BitVec 1) :
    (coreRows.filter fun r => r.selects (place 12 o ||| place 11 b ||| place 5 c)).length = 1 := by
  revert o b c; decide

theorem coreRows_partition (w : Word) : (coreRows.filter fun r => r.selects w).length = 1 := by
  rw [List.filter_congr fun r hr => Row.selects_key hr w, keyMask, ← place_fields3]
  exact coreRows_key _ _ _

/-! ### The words of `aliasRows` (R65) -/

theorem decode_ret {w : Word} (h : field 12 4 w = 12#4) (hbase : field 6 3 w = 7#3) :
    decode w = .ret (field 9 3 w) (field 0 6 w) := (decode_opcode h).trans (if_pos hbase)

theorem decode_nop {w : Word} (h : field 12 4 w = 0#4) (hflags : field 9 3 w = 0#3) :
    decode w = .nop (field 0 9 w) := (decode_opcode h).trans (if_pos hflags)

/-- A word of a row of `aliasRows` decodes to that row's constructor. -/
theorem row_decode_of_alias {r : Row} (hr : r ∈ aliasRows) {w : Word} (h : r.selects w = true) : (decode w).row = r := by
  have service : ∀ (v : BitVec 8), r.mask = fieldMask 12 4 ||| fieldMask 0 8 →
      r.pattern = place 12 15#4 ||| place 0 v → decode w = .ofVector (field 8 4 w) v := fun v hm hp => by
    obtain ⟨ho, hv⟩ := (Row.selects_iff (by decide) hm hp).mp h
    exact decode_trap ho hv
  simp only [aliasRows, List.mem_cons, List.not_mem_nil, or_false] at hr
  rcases hr with rfl | rfl | rfl | rfl | rfl | rfl | rfl | rfl
  · rw [service 0x20#8 rfl rfl]; rfl
  · rw [service 0x21#8 rfl rfl]; rfl
  · rw [service 0x22#8 rfl rfl]; rfl
  · rw [service 0x23#8 rfl rfl]; rfl
  · rw [service 0x24#8 rfl rfl]; rfl
  · rw [service 0x25#8 rfl rfl]; rfl
  · obtain ⟨ho, hbase⟩ := (Row.selects_iff (o := 12#4) (lo := 6) (v := 7#3) (by decide) rfl rfl).mp h
    rw [decode_ret ho hbase]; rfl
  · obtain ⟨ho, hflags⟩ := (Row.selects_iff (o := 0#4) (lo := 9) (v := 0#3) (by decide) rfl rfl).mp h
    rw [decode_nop ho hflags]; rfl

/-- Settles O14: the core rows by the 64 keys, the decoder's row by `encode_decode`, `aliasRows` by their fields. -/
theorem rowsPartitionTheWords : Obligations.RowsPartitionTheWords := fun w =>
  ⟨coreRows_partition w, selects_decode w, fun _ hr => ⟨row_decode_of_alias hr, fun h => h ▸ selects_decode w⟩⟩

end Sys2Proof
end

section
/-! PROOFS. The encoding family, meaning: pad bits, sample words, and the words that stop the machine
(spec/30_encoding.md R60, R61, R65; spec/10_state.md R19). -/

namespace Sys2Proof.Machine

/-! ### Pad bits (R60) and sample words -/

/-- The pads of every row but the two stopping ones are not passed on by `exec` (R60). -/
theorem exec_canonical {i : Instr} (h : ∀ p, i ≠ .rti p ∧ i ≠ .res p) (s : State) : exec i.canonical s = exec i s := by
  cases i with
  | rti p => exact absurd rfl (h p).1
  | res p => exact absurd rfl (h p).2
  | addReg | addImm | andReg | andImm | not | br | jmp | jsr | jsrr | ld | ldi | lea | st | sti | ldr | str | trap
    | getc | out | puts | inp | putsp | halt | ret | nop => rfl

/-- Settles O15: the two stopping opcodes raise the same cause but for the instruction word it reports (R140). -/
theorem padBitsDoNotMatter : Obligations.PadBitsDoNotMatter := by
  refine fun i s => ⟨fun h => exec_canonical h s, ?_, ?_⟩
  · rintro p rfl; exact ⟨_, _, rfl, rfl, rfl, rfl⟩
  · rintro p rfl; exact ⟨_, _, rfl, rfl, rfl, rfl⟩

/-- Settles O16, by evaluating the decoder and the encoder on the words. -/
theorem sampleWordsDecode : Obligations.SampleWordsDecode := by
  unfold Obligations.SampleWordsDecode
  decide

/-! ### The run state after an instruction (R19, R61) -/

/-- The run state is as it was, or the host failed (R146). -/
def RunKept (s t : State) : Prop := t.run = s.run ∨ t.run = .faulted .hostIOFailure

/-- A reading service stops only where its stream or its echo fails (R124, R127). -/
theorem resume_runKept (p : WaitPoint) (s : State) : (resume p s).All (RunKept s) := by
  cases p with
  | getc =>
    obtain ⟨b, more, -, e⟩ | ⟨more, e, -⟩ | e := getcRead_ends s <;> rw [resume, e]
    · exact .inl rfl
    · exact .inl rfl
    · exact .inr rfl
  | inp =>
    obtain ⟨b, more, t, -, hout, e⟩ | ⟨more, e, -⟩ | ⟨b, more, -, e⟩ | e := inRead_ends s <;> rw [resume, e]
    · have sent := hostOut_sent b ((s.setInput more).setWaiting none)
      rw [hout] at sent
      exact sent.run
    · exact .inl rfl
    · exact .inr rfl
    · exact .inr rfl

/-- A part that sends, then a part that stops only where the host fails. -/
theorem Flow.All.andThen_runKept {s : State} {f : Flow} {k : State → Flow} (hf : f.All (Sent s))
    (hk : ∀ t, (k t).All (RunKept t)) : (f.andThen k).All (RunKept s) :=
  hf.andThen (fun _ h => h.run) fun t ht => (hk t).mono fun _ hu =>
    hu.elim (fun e => ht.run.imp e.trans e.trans) .inr

theorem isServiceVector_iff {v : BitVec 8} : isServiceVector v = true ↔ 0x20 ≤ v.toNat ∧ v.toNat ≤ 0x25 :=
  decide_eq_true_iff

/-- What a TRAP leaves in the run state, by its vector (R121, R129, R130, R142). -/
def TrapRun (v : BitVec 8) (s t : State) : Prop :=
  (isServiceVector v = true ∧ RunKept s t) ∨ (v = 0x25#8 ∧ t.run = .halted) ∨
    (isServiceVector v = false ∧ t.run = .faulted (.invalidTrapVector v))

theorem trapTable_trapRun (v : BitVec 8) (s : State) : (trapTable v s).All (TrapRun v s) := by
  have flush : ∀ {f : Flow}, f.All (Sent s) → (f.andThen fun t => .done (hostFlush t)).All (RunKept s) := fun hf =>
    hf.andThen_runKept fun _ => .inl rfl
  cases hv : isServiceVector v with
  | false => rw [trapTable_invalid hv]; exact .inr (.inr ⟨hv, rfl⟩)
  | true =>
    have kept : ∀ {f : Flow}, f.All (RunKept s) → f.All (TrapRun v s) := fun hf => hf.mono fun _ h => .inl ⟨hv, h⟩
    rcases isServiceVector_cases hv with rfl | rfl | rfl | rfl | rfl | rfl
    · exact kept (resume_runKept .getc s)
    · exact kept (flush (hostOut_sent _ s))
    · exact kept (flush (putsLoop_sent _ _ s))
    · exact kept ((hostOutAll_sent _ s).andThen_runKept fun t => resume_runKept .inp (hostFlush t))
    · exact kept (flush (putspLoop_sent _ _ s))
    · exact (hostOutAll_sent _ s).andThen (fun _ h => .inl ⟨hv, h.run⟩) fun _ _ => .inr (.inl ⟨rfl, rfl⟩)

/-- A row that is neither a TRAP nor a stopping opcode leaves the run state as it was (R61). -/
theorem exec_run_of_plain {i : Instr} (hv : trapVector i = none) (hrti : ∀ p, i ≠ .rti p) (hres : ∀ p, i ≠ .res p)
    {s t : State} (h : exec i s = .next t) : t.run = s.run := by
  obtain ⟨r, v, -, -, -, e⟩ | ⟨a, -, -, -, e⟩ | ⟨a, -, -, -, e⟩ | ⟨a, v, -, -, -, e⟩ | ⟨c, -, -, -, -, -, hp⟩ :=
    exec_cases hv s
  case inr.inr.inr.inr => exact (hp.elim (fun ⟨p, e⟩ => hrti p e) fun ⟨p, e⟩ => hres p e).elim
  all_goals rw [e] at h; cases h; rfl

/-- Settles O54, by the opcode's class: TRAP by its vector, RTI, the reserved opcode, and every other row. -/
theorem wordsThatStopTheMachine : Obligations.WordsThatStopTheMachine := by
  intro s t hr hw h
  rw [step_fetches hr hw] at h
  rw [← isServiceVector_iff]
  obtain ⟨ho, hv⟩ | ⟨ho, hd⟩ | ⟨ho, hd⟩ | ⟨h15, h8, h13, hv, hrti, hres⟩ := decode_cases s.fetch
  · have run : TrapRun (field 0 8 s.fetch) (link s.advance) t := exec_trap_next hv (trapTable_trapRun _ _) h
    obtain ⟨hs, run | run⟩ | ⟨h25, run⟩ | ⟨hs, run⟩ := run
    · simp [run, hr, ho, hs]
    · simp [run, ho, hs]
    · simp [run, ho, h25, show isServiceVector 0x25#8 = true from rfl]
    · simp [run, ho, hs]
  · rw [hd] at h; cases h; simp [ho]
  · rw [hd] at h; cases h; simp [ho]
  · simp [exec_run_of_plain hv hrti hres h, hr, h15, h8, h13]

end Sys2Proof.Machine
end

section
/-! PROOFS. The operate family: ADD, AND and NOT (spec/40_operate.md R81 to R86). -/

namespace Sys2Proof.Machine

/-! ### Operands as numbers (R56, R80) -/

/-- A sign-extended field is the word of its number (R56). -/
theorem ofNat_sextNumber {n : Nat} (hn : n ≤ 16) (v : BitVec n) : BitVec.ofNat 16 (sextNumber v) = sext v := by
  rw [← sext_toNat hn, BitVec.ofNat_toNat, BitVec.setWidth_eq]

/-- The wrapped sum of a word and a sign-extended field, by their numbers (R56, R82). -/
theorem ofNat_add_sextNumber {n : Nat} (hn : n ≤ 16) (a : Word) (v : BitVec n) :
    BitVec.ofNat 16 (a.toNat + sextNumber v) = a + sext v := by
  rw [← sext_toNat hn, BitVec.add_def]

/-- The bitwise complement is 0xFFFF minus the word (R85). -/
theorem ofNat_sub_eq_not (a : Word) : BitVec.ofNat 16 (0xFFFF - a.toNat) = ~~~ a :=
  BitVec.eq_of_toNat_eq (by rw [BitVec.toNat_not, BitVec.toNat_ofNat, Nat.mod_eq_of_lt (by omega)])

/-! ### Selection by the mode bit (R55) -/

theorem decode_add {w : Word} (h : field 12 4 w = 1#4) : decode w = decodeAdd w := decode_opcode h

theorem decode_and {w : Word} (h : field 12 4 w = 5#4) : decode w = decodeAnd w := decode_opcode h

/-! ### The statements -/

/-- Settles O17: the sum of words is the wrapped sum of their numbers. -/
theorem addRegister : Obligations.AddRegister := by
  refine ⟨fun w h hmode => ?_, fun dr sr1 sr2 pad s => ⟨rfl, _, rfl, ?_⟩⟩
  · rw [decode_add h, decodeAdd, if_neg (ne_true_of_eq_false hmode)]
  · rw [← BitVec.add_def]
    exact State.writeRegSetcc_wrote s dr _

/-- Settles O18: as O17, with the immediate's number. -/
theorem addImmediate : Obligations.AddImmediate := by
  refine ⟨fun w h hmode => ?_, fun dr sr1 imm5 s => ⟨rfl, _, rfl, ?_⟩⟩
  · rw [decode_add h, decodeAdd, if_pos hmode]
  · rw [ofNat_add_sextNumber (by decide)]
    exact State.writeRegSetcc_wrote s dr _

/-- Settles O19: the result is the two sources' `&&&`, bit by bit. -/
theorem andRegister : Obligations.AndRegister := by
  refine ⟨fun w h hm => ?_, fun dr sr1 sr2 pad s => ⟨rfl, _, _, rfl, fun i _ => ?_, State.writeRegSetcc_wrote s dr _⟩⟩
  · rw [decode_and h, decodeAnd, if_neg (ne_true_of_eq_false hm)]
  · exact BitVec.getLsbD_and

/-- Settles O20: as O19, with the sign-extended immediate for the second source. -/
theorem andImmediate : Obligations.AndImmediate := by
  refine ⟨fun w h hm => ?_, fun dr sr1 imm5 s => ⟨rfl, _, _, rfl, fun i _ => ?_, State.writeRegSetcc_wrote s dr _⟩⟩
  · rw [decode_and h, decodeAnd, if_pos hm]
  · rw [ofNat_sextNumber (by decide)]
    exact BitVec.getLsbD_and

/-- Settles O21: the complement is the subtraction from 0xFFFF. -/
theorem notComplements : Obligations.NotComplements := by
  refine ⟨fun w h => decode_opcode h, fun dr sr pad s => ⟨rfl, _, rfl, ?_⟩⟩
  rw [ofNat_sub_eq_not]
  exact State.writeRegSetcc_wrote s dr _

end Sys2Proof.Machine
end

section
/-! PROOFS. The control family: BR, JMP, JSR, JSRR and the aliases NOP and RET (spec/41_control.md R90 to R96). -/

namespace Sys2Proof.Machine

/-! ### BR's test (R91) -/

/-- BR's test, flag by flag: the one requested is the current one. -/
theorem brTaken_iff {n z p : Bool} {c : Cond} :
    brTaken n z p c = true ↔ (n = true ∧ c = .N) ∨ (z = true ∧ c = .Z) ∨ (p = true ∧ c = .P) := by
  cases c <;> simp [brTaken]

/-- The word `ir[11:9]` of a BR is its three flag bits, n first. -/
theorem field_flags_encode_br (n z p : Bool) (off : BitVec 9) :
    field 9 3 (encode (.br n z p off)) = BitVec.ofBool n ++ BitVec.ofBool z ++ BitVec.ofBool p := by
  have flags : field 9 3 (place 11 (BitVec.ofBool n) ||| place 10 (BitVec.ofBool z) ||| place 9 (BitVec.ofBool p)) =
      BitVec.ofBool n ++ BitVec.ofBool z ++ BitVec.ofBool p := by
    revert n z p; decide
  have row : encode (.br n z p off) = (Instr.br n z p off).operandBits := BitVec.zero_or
  have offset : field 9 3 (place 0 off) = 0#3 := field_place_of_disjoint (by decide) off
  rw [row, Instr.operandBits, field_or, flags, offset, BitVec.or_zero]

/-- With the patterns of D6 each condition's pattern is the bit its flag has in BR's mask. -/
theorem brTaken_iff_mask {cfg : Config} (hn : cfg.flNeg = 4) (hz : cfg.flZro = 2) (hp : cfg.flPos = 1)
    (n z p : Bool) (c : Cond) : brTaken n z p c = true ↔
      (BitVec.ofBool n ++ BitVec.ofBool z ++ BitVec.ofBool p) &&& field 0 3 (Config.pattern cfg c) ≠ 0#3 := by
  cases c with
  | N => rw [Config.pattern, hn]; revert n z p; decide
  | Z => rw [Config.pattern, hz]; revert n z p; decide
  | P => rw [Config.pattern, hp]; revert n z p; decide

/-- Settles O23: the word's flag bits against the pattern of the current condition. -/
theorem branchTestIsMaskTest : Obligations.BranchTestIsMaskTest := by
  intro n z p off s hn hz hp
  rw [field_flags_encode_br]
  exact brTaken_iff_mask hn hz hp n z p s.cond

/-! ### Writes of `pc`, and the link before them (R90, R93) -/

/-- A write of `pc` changes nothing else. -/
theorem State.setPc_wrote (s : State) (a : Word) : WrotePc a [] s (s.setPc a) :=
  ⟨rfl, fun _ _ => rfl, rfl, rfl, fun _ => rfl, ⟨rfl, rfl, rfl, rfl, rfl⟩⟩

/-- The link, then a write of `pc`: `x[7]` is the one register written. -/
theorem link_setPc_wrote (s : State) (a : Word) : WrotePc a [7#3] s ((link s).setPc a) :=
  ⟨rfl, link_regsSameBut s, rfl, rfl, fun _ => rfl, ⟨rfl, rfl, rfl, rfl, rfl⟩⟩

/-! ### Selection by the opcode (R55, R91, R92) -/

theorem decode_br {w : Word} (h : field 12 4 w = 0#4) : decode w = decodeBr w := decode_opcode h

theorem decode_jmp {w : Word} (h : field 12 4 w = 12#4) : decode w = decodeJmp w := decode_opcode h

theorem decode_jsr {w : Word} (h : field 12 4 w = 4#4) : decode w = decodeJsr w := decode_opcode h

/-! ### The statements -/

/-- Settles O22: BR by whether it is taken (`brTaken_iff`), NOP as the BR that requests no flag. -/
theorem branchOnFlags : Obligations.BranchOnFlags := by
  refine ⟨fun _ h => decode_br h, fun n z p off s => ⟨rfl, ?_⟩,
    fun off s => ⟨rfl, exec_nop off s, exec_nop off s⟩⟩
  rw [← brTaken_iff, ofNat_add_sextNumber (by decide)]
  by_cases taken : brTaken n z p s.cond = true
  · exact ⟨_, exec_br_taken taken off, fun _ => State.setPc_wrote s _, fun h => absurd taken h⟩
  · exact ⟨_, exec_br_not_taken taken off, fun h => absurd h taken, fun _ => rfl⟩

/-- Settles O24: both rows write `pc` alone. -/
theorem jumpThroughRegister : Obligations.JumpThroughRegister :=
  ⟨fun _ h => decode_jmp h, fun _ _ _ s => ⟨rfl, _, rfl, State.setPc_wrote s _⟩,
    fun _ _ s => ⟨rfl, _, rfl, State.setPc_wrote s _⟩⟩

/-- Settles O25: the link leaves `pc`, so the target is relative to `pc_inc`. -/
theorem jsrLinksAndJumps : Obligations.JsrLinksAndJumps := by
  refine ⟨fun w h hmode => ?_, fun off s => ⟨rfl, _, rfl, link_x_seven s, ?_⟩⟩
  · rw [decode_jsr h, decodeJsr, if_pos hmode]
  · rw [ofNat_add_sextNumber (by decide)]
    exact link_setPc_wrote s _

/-- Settles O26: the base register is read after the link (`link_x`), so register 7 gives `pc_inc`. -/
theorem jsrrLinksBeforeItReads : Obligations.JsrrLinksBeforeItReads := by
  refine ⟨fun w h hmode => ?_, fun padHi baseR padLo s => ⟨rfl, _, rfl, link_x_seven s, ?_⟩⟩
  · rw [decode_jsr h, decodeJsr, if_neg (ne_true_of_eq_false hmode)]
  · rw [← link_x]
    exact link_setPc_wrote s _

end Sys2Proof.Machine
end

section
/-! PROOFS. The load and store family: LD, LDI, LDR, LEA, ST, STI, STR, and who writes memory (spec/42_load_store.md R100
to R108; spec/20_memory.md R42). -/

namespace Sys2Proof.Machine

/-! ### Addresses as numbers (R57, R107) -/

/-- The PC-relative address is the word of the wrapped sum of numbers. -/
theorem State.ofNat_pcRelative {n : Nat} (hn : n ≤ 16) (s : State) (off : BitVec n) :
    BitVec.ofNat 16 (s.pc.toNat + sextNumber off) = s.pcRelative off := ofNat_add_sextNumber hn s.pc off

/-- As the PC-relative address, from the base register. -/
theorem State.ofNat_basePlusOffset {n : Nat} (hn : n ≤ 16) (s : State) (baseR : RegSel) (off : BitVec n) :
    BitVec.ofNat 16 ((s.x baseR).toNat + sextNumber off) = s.basePlusOffset baseR off :=
  ofNat_add_sextNumber hn (s.x baseR) off

/-- Settles O27: a word's number is the sum's remainder modulo 65536. -/
theorem effectiveAddresses : Obligations.EffectiveAddresses := by
  intro s off9 off6 baseR
  have pcRelative := s.ofNat_pcRelative (by decide) off9
  refine ⟨?_, ?_, ?_⟩
  · rw [← pcRelative]; exact BitVec.toNat_ofNat ..
  · rw [pcRelative, State.indirect]
  · rw [← s.ofNat_basePlusOffset (by decide) baseR off6]; exact BitVec.toNat_ofNat ..

/-! ### Loads and LEA (R100 to R103) -/

/-- Settles O28: the word read goes to the register with its flags (`State.writeRegSetcc_wrote`). -/
theorem loadPcRelative : Obligations.LoadPcRelative := by
  refine ⟨fun _ h => decode_opcode h, fun dr off s => ?_⟩
  rw [s.ofNat_pcRelative (by decide)]
  exact ⟨rfl, _, rfl, s.writeRegSetcc_wrote dr _⟩

/-- Settles O29: as O28, at the address the pointer holds. -/
theorem loadIndirect : Obligations.LoadIndirect := by
  refine ⟨fun _ h => decode_opcode h, fun dr off s => ?_⟩
  rw [s.ofNat_pcRelative (by decide)]
  exact ⟨rfl, _, rfl, s.writeRegSetcc_wrote dr _⟩

/-- Settles O30: as O28, with the base register's value for `pc_inc`. -/
theorem loadBasePlusOffset : Obligations.LoadBasePlusOffset := by
  refine ⟨fun _ h => decode_opcode h, fun dr baseR off s => ?_⟩
  rw [s.ofNat_basePlusOffset (by decide)]
  exact ⟨rfl, _, rfl, s.writeRegSetcc_wrote dr _⟩

/-- Settles O31: the address itself goes to the register. -/
theorem loadEffectiveAddress : Obligations.LoadEffectiveAddress := by
  refine ⟨fun _ h => decode_opcode h, fun dr off s => ?_⟩
  rw [s.ofNat_pcRelative (by decide)]
  exact ⟨rfl, _, rfl, s.writeRegSetcc_wrote dr _⟩

/-! ### Stores (R104 to R106) -/

/-- A storing row ends in the state with its source register's word at its address, and nothing else written (R108). -/
theorem exec_store_wrote {i : Instr} {s : State} {sr : RegSel} {a : Word} (hm : s.mem.wf = true)
    (hs : i.storeSource = some sr) (ha : i.storeAddress s = some a) :
    ∃ t, exec i s = .next t ∧ WroteMemory a (s.x sr) s t :=
  ⟨_, exec_store hs ha, State.memWrite_wrote hm a _⟩

/-- Settles O32, by the rule of all three stores (`exec_store_wrote`). -/
theorem storePcRelative : Obligations.StorePcRelative :=
  ⟨fun _ h => decode_opcode h, fun _ off s hm =>
    ⟨(s.ofNat_pcRelative (by decide) off).symm, rfl, exec_store_wrote hm rfl rfl⟩⟩

/-- Settles O33: the store's address is the word at the PC-relative address. -/
theorem storeIndirect : Obligations.StoreIndirect := by
  refine ⟨fun _ h => decode_opcode h, fun sr off s hm => ?_⟩
  rw [s.ofNat_pcRelative (by decide)]
  exact ⟨rfl, rfl, exec_store_wrote hm rfl rfl⟩

/-- Settles O34: as O32, at base plus offset. -/
theorem storeBasePlusOffset : Obligations.StoreBasePlusOffset :=
  ⟨fun _ h => decode_opcode h, fun _ baseR off s hm =>
    ⟨(s.ofNat_basePlusOffset (by decide) baseR off).symm, rfl, exec_store_wrote hm rfl rfl⟩⟩

/-! ### Who writes memory (R42, R108) -/

/-- The execute phase leaves every word as it was but the one at a storing row's address. -/
theorem exec_memRead {i : Instr} {s t : State} {a : Word} (hm : s.mem.wf = true) (ha : i.storeAddress s ≠ some a)
    (h : exec i s = .next t) : t.memRead a = s.memRead a := by
  cases hv : trapVector i with
  | some v => exact State.memRead_eq_of_mem (exec_trap_next hv (trapTable_served v _) h).mem a
  | none =>
    obtain ⟨d, v, -, -, -, e⟩ | ⟨b, -, -, -, e⟩ | ⟨b, -, -, -, e⟩ | ⟨b, v, -, -, hb, e⟩ | ⟨c, -, -, -, e, -⟩ :=
      exec_cases hv s <;> rw [e] at h <;> cases h
    · exact (s.writeRegSetcc_wrote d v).memory a
    · rfl
    · rfl
    · exact (State.memWrite_wrote hm b v).memory a fun hab => ha (hab ▸ hb)
    · rfl

/-- Settles O57, by the three ways a step answers a next state: only a fetched row may store; a service that goes on and
a stopped block leave memory as it was. -/
theorem memoryIsWrittenOnlyByStores : Obligations.MemoryIsWrittenOnlyByStores := by
  intro s t a hm h hne
  obtain ⟨hr, hw, he⟩ | ⟨-, p, -, he⟩ | ⟨-, rfl⟩ := step_next h
  · exact ⟨hr, hw, by_contra fun ha => hne (exec_memRead (s := s.advance) hm ha he)⟩
  · exact absurd (State.memRead_eq_of_mem ((resume_served p s).of_next he).mem a) hne
  · exact absurd rfl hne

end Sys2Proof.Machine
end

section
/-! PROOFS. The trap family, services: the frame of a TRAP, and where OUT, HALT and IN's prompt leave the block, by the
sink's room (spec/43_trap_system.md R120, R125, R127, R129; spec/60_exceptions.md R142). -/

namespace Sys2Proof.Machine

/-! ### The frame of a TRAP (R120, R150) -/

/-- Whatever the vector, a TRAP row leaves TRAP's frame, `x[0]` aside. -/
theorem exec_trapFrame {i : Instr} {v : BitVec 8} {s t : State} (hv : trapVector i = some v) (h : exec i s = .next t) :
    TrapFrame [0#3] s t :=
  (exec_trap_next hv (trapTable_served v (link s)) h).trapFrame

/-- What a TRAP that writes no register but the link leaves: the frame, the flags and the wait point. -/
structure OnlyLinked (s t : State) : Prop where
  frame : TrapFrame [] s t
  cond : t.cond = s.cond
  waiting : t.waiting = s.waiting

/-- Every vector but GETC's and IN's writes no register but the link. -/
theorem exec_onlyLinked {i : Instr} {v : BitVec 8} {s t : State} (hv : trapVector i = some v) (h20 : v ≠ 0x20#8)
    (h23 : v ≠ 0x23#8) (h : exec i s = .next t) : OnlyLinked s t := by
  have unread := exec_trap_next hv (trapTable_unread h20 h23 (link s)) h
  have frame := exec_trapFrame hv h
  have regs := State.x_eq_of_regs unread.regs
  exact ⟨⟨frame.linked, fun r hr => (regs r).trans (link_regsSameBut s r hr), frame.pc, frame.memory, frame.cfg⟩,
    unread.cond, unread.waiting⟩

theorem TrapFrame.raised {ds : List RegSel} {s t : State} (h : TrapFrame ds s t) (c : FatalCause) :
    TrapFrame ds s (raise c t) :=
  ⟨h.linked, h.regs, h.pc, h.memory, h.cfg⟩

/-! ### OUT, HALT and IN's prompt, by the sink's room -/

theorem svcOut_sent {s : State} (h : s.sinkTakes 1) : svcOut s = .done (hostFlush (s.sent [lowByte (s.x 0#3)])) := by
  rw [svcOut, hostOut_done _ h]; rfl

theorem svcOut_raised {s : State} (h : s.sinkRoom = some 0) : svcOut s = .raised (raise .hostIOFailure s) := by
  rw [svcOut, hostOut_raised _ h]; rfl

theorem svcHalt_sent {s : State} (h : s.sinkTakes s.cfg.haltNotice.length) :
    svcHalt s = .done ((hostFlush (s.sent s.cfg.haltNotice)).setRun .halted) := by
  rw [svcHalt, hostOutAll_done _ s h]; rfl

theorem svcHalt_cutOff {s : State} {n : Nat} (h : s.sinkRoom = some n) (hn : n < s.cfg.haltNotice.length) :
    svcHalt s = .raised (s.cutOff (s.cfg.haltNotice.take n)) := by
  rw [svcHalt, hostOutAll_raised _ s n h hn]; rfl

/-- IN where the sink fails inside its prompt. -/
theorem svcIn_raised {s : State} {n : Nat} (h : s.sinkRoom = some n) (hn : n < s.cfg.inPrompt.length) :
    svcIn s = .raised (s.cutOff (s.cfg.inPrompt.take n)) := by
  rw [svcIn, hostOutAll_raised _ s n h hn]; rfl

end Sys2Proof.Machine
end

section
/-! PROOFS. The trap family, strings: what PUTS and PUTSP send and read, where the sink fails in them, and when they
never end (spec/43_trap_system.md R122, R126, R128; spec/60_exceptions.md R142). -/

namespace Sys2Proof.Machine

/-! ### Bytes of a word as numbers -/

theorem lowByte_toNat (w : Word) : (lowByte w).toNat = w.toNat % 256 := by
  simp [lowByte, BitVec.extractLsb'_toNat]

theorem highByte_toNat (w : Word) : (highByte w).toNat = w.toNat / 256 := by
  have := w.isLt
  simp [highByte, BitVec.extractLsb'_toNat, Nat.shiftRight_eq_div_pow]
  omega

theorem lowByte_eq_ofNat (w : Word) : lowByte w = BitVec.ofNat 8 (w.toNat % 256) := by
  rw [← lowByte_toNat, BitVec.ofNat_toNat, BitVec.setWidth_eq]

theorem highByte_eq_ofNat (w : Word) : highByte w = BitVec.ofNat 8 (w.toNat / 256) := by
  rw [← highByte_toNat, BitVec.ofNat_toNat, BitVec.setWidth_eq]

theorem lowByte_eq_zero_iff (w : Word) : lowByte w = 0#8 ↔ w.toNat % 256 = 0 := by
  rw [← lowByte_toNat]; exact BitVec.toNat_inj.symm

theorem highByte_eq_zero_iff (w : Word) : highByte w = 0#8 ↔ w.toNat / 256 = 0 := by
  rw [← highByte_toNat]; exact BitVec.toNat_inj.symm

/-- Byte `k` of a packed string by the number of its word (R128). -/
theorem State.packedByte_eq_ofNat (s : State) (a : Word) (k : Nat) :
    s.packedByte a k = BitVec.ofNat 8 (if k % 2 = 0 then (s.memRead (a + BitVec.ofNat 16 (k / 2))).toNat % 256
      else (s.memRead (a + BitVec.ofNat 16 (k / 2))).toNat / 256) := by
  simp only [State.packedByte, lowByte_eq_ofNat, highByte_eq_ofNat]
  split <;> rfl

/-- The bytes of a word of a PUTS string by its number (R126). -/
theorem putsChar_eq_ofNat (w : Word) :
    putsChar w = if w.toNat ≤ 0x00FF then [BitVec.ofNat 8 w.toNat] else Config.putsWide w := by
  unfold putsChar
  split
  · next h => rw [lowByte_eq_ofNat, Nat.mod_eq_of_lt (Nat.lt_succ_of_le h)]
  · rfl

/-! ### A terminated string is shorter than a round of the address space (R122) -/

theorem lt_round_of_terminated {P : Word → Prop} {a : Word} {n : Nat} (h : ∀ k < n, P (a + BitVec.ofNat 16 k))
    (hn : ¬ P (a + BitVec.ofNat 16 n)) : n < 65536 := by
  by_contra hle
  exact hn (every_address (Nat.le_of_not_lt hle) h _)

/-- The word with the zero byte of a packed string is met within a round. -/
theorem State.packed_lt_round {s : State} {a : Word} {n : Nat} (h : ∀ k < n, s.packedByte a k ≠ 0)
    (hz : s.packedByte a n = 0) : n / 2 < 65536 := by
  refine lt_round_of_terminated (P := fun b => lowByte (s.memRead b) ≠ 0 ∧ highByte (s.memRead b) ≠ 0) (a := a)
    (fun k hk => ⟨?_, ?_⟩) ?_
  · have low := h (2 * k) (by omega)
    rwa [State.packedByte, if_pos (by omega), Nat.mul_div_cancel_left k two_pos] at low
  · have high := h (2 * k + 1) (by omega)
    rwa [State.packedByte, if_neg (by omega), show (2 * k + 1) / 2 = k by omega] at high
  · rintro ⟨low, high⟩
    unfold State.packedByte at hz
    split at hz
    · exact low hz
    · exact high hz

/-! ### The string services, by the sink's room -/

/-- PUTS over the string `chars` at `x[0]`, and its reads. -/
theorem svcPuts_sent {s : State} {chars : List Word}
    (hc : ∀ k (h : k < chars.length), s.memRead (s.x 0#3 + BitVec.ofNat 16 k) = chars[k] ∧ chars[k] ≠ 0)
    (hz : s.memRead (s.x 0#3 + BitVec.ofNat 16 chars.length) = 0) (hs : s.sinkTakes (chars.flatMap putsChar).length) :
    svcPuts s = .done (hostFlush (s.sent (chars.flatMap putsChar))) ∧
      trapReads 0x22#8 s = (List.range (chars.length + 1)).map fun k => .read (s.x 0#3 + BitVec.ofNat 16 k) := by
  have round : chars.length < 65536 := lt_round_of_terminated (P := fun b => s.memRead b ≠ 0)
    (fun k hk => by rw [(hc k hk).1]; exact (hc k hk).2) (not_not.mpr hz)
  obtain ⟨loop, reads⟩ := putsLoop_done chars s.stringFuel (s.x 0#3) s (round.trans_le s.stringFuel_ge) hc hz hs
  exact ⟨by rw [svcPuts, loop]; rfl, reads⟩

/-- PUTS where the sink fails inside the bytes of the character at `j`, and its reads. -/
theorem svcPuts_cutOff {s : State} {chars : List Word} {n j : Nat}
    (hc : ∀ k (h : k < chars.length), s.memRead (s.x 0#3 + BitVec.ofNat 16 k) = chars[k] ∧ chars[k] ≠ 0)
    (hs : s.sinkRoom = some n) (hle : ((chars.take j).flatMap putsChar).length ≤ n)
    (hn : n < ((chars.take (j + 1)).flatMap putsChar).length) :
    svcPuts s = .raised (s.cutOff ((chars.flatMap putsChar).take n)) ∧
      trapReads 0x22#8 s = (List.range (j + 1)).map fun k => .read (s.x 0#3 + BitVec.ofNat 16 k) := by
  have reached : j < s.stringFuel := failing_char_within_fuel hc hs hle hn
  obtain ⟨loop, reads⟩ := putsLoop_raised j chars s.stringFuel (s.x 0#3) s n reached hc hs hle hn
  exact ⟨by rw [svcPuts, loop]; rfl, reads⟩

/-- PUTSP over the packed string `bytes` at `x[0]`, and its reads. -/
theorem svcPutsp_sent {s : State} {bytes : List Byte}
    (hc : ∀ k (h : k < bytes.length), s.packedByte (s.x 0#3) k = bytes[k] ∧ bytes[k] ≠ 0)
    (hz : s.packedByte (s.x 0#3) bytes.length = 0) (hs : s.sinkTakes bytes.length) :
    svcPutsp s = .done (hostFlush (s.sent bytes)) ∧
      trapReads 0x24#8 s = (List.range (bytes.length / 2 + 1)).map fun k => .read (s.x 0#3 + BitVec.ofNat 16 k) := by
  have round := State.packed_lt_round (fun k hk => by rw [(hc k hk).1]; exact (hc k hk).2) hz
  obtain ⟨loop, reads⟩ := putspLoop_done bytes.length bytes le_rfl s.stringFuel (s.x 0#3) s
    (round.trans_le s.stringFuel_ge) hc hz hs
  exact ⟨by rw [svcPutsp, loop]; rfl, reads⟩

/-- The rounds allowed reach the word of the byte the sink fails at. -/
theorem State.lt_stringFuel {s : State} {n : Nat} (h : s.sinkRoom = some n) : n < s.stringFuel := by
  simp only [State.stringFuel, h]; omega

/-- PUTSP where the sink fails at byte `n`, and its reads. -/
theorem svcPutsp_cutOff {s : State} {bytes : List Byte} {n : Nat}
    (hc : ∀ k (h : k < bytes.length), s.packedByte (s.x 0#3) k = bytes[k] ∧ bytes[k] ≠ 0)
    (hs : s.sinkRoom = some n) (hn : n < bytes.length) :
    svcPutsp s = .raised (s.cutOff (bytes.take n)) ∧
      trapReads 0x24#8 s = (List.range (n / 2 + 1)).map fun k => .read (s.x 0#3 + BitVec.ofNat 16 k) := by
  obtain ⟨loop, reads⟩ := putspLoop_raised (n / 2) bytes s.stringFuel (s.x 0#3) s n rfl
    ((Nat.div_le_self n 2).trans_lt (State.lt_stringFuel hs)) hc hs hn
  exact ⟨by rw [svcPutsp, loop]; rfl, reads⟩

/-! ### Where the string services never end (R122) -/

theorem Flow.andThen_done_endless {f : Flow} {k : State → State} :
    (f.andThen fun t => .done (k t)) = .endless ↔ f = .endless := by cases f <;> simp

/-- A flow that has no next state never ends. -/
theorem Flow.exists_next_iff (f : Flow) : (∃ t, f.outcome = .next t) ↔ f.outcome ≠ .fault .serviceNeverEnds := by
  cases f <;> simp

theorem svcPuts_endless_iff {s : State} (h : s.sinkRoom = none) : svcPuts s = .endless ↔ ∀ a, s.memRead a ≠ 0 := by
  rw [svcPuts, Flow.andThen_done_endless]
  exact ⟨fun e => every_address s.stringFuel_ge (putsLoop_endless _ _ s e), putsLoop_without_terminator _ _ s h⟩

theorem svcPutsp_endless_iff {s : State} (h : s.sinkRoom = none) :
    svcPutsp s = .endless ↔ ∀ a, lowByte (s.memRead a) ≠ 0 ∧ highByte (s.memRead a) ≠ 0 := by
  rw [svcPutsp, Flow.andThen_done_endless]
  exact ⟨fun e => every_address s.stringFuel_ge (putspLoop_endless _ _ s e), putspLoop_without_terminator _ _ s h⟩

end Sys2Proof.Machine
end

section
/-! PROOFS. The trap family, statements: TRAP, its six services, the two stopping opcodes (spec/43_trap_system.md R120
to R132). -/

namespace Sys2Proof.Machine

/-! ### TRAP and the stopping opcodes (R120, R131, R132) -/

/-- Settles O37: the frame and the run state of every vector's service, said once for all of them. -/
theorem trapDispatches : Obligations.TrapDispatches := by
  refine ⟨fun w h hv => (decode_trap h rfl).trans (Instr.ofVector_invalid hv _),
    fun _ _ => ⟨rfl, rfl, rfl, rfl, rfl, rfl⟩, fun pad v s hv => ?_,
    fun pad v s t h => ⟨exec_trapFrame rfl h, fun h20 h23 => ?_, ?_⟩, fun pad v s h22 h24 => ?_⟩
  · have e := (exec_trapVector (i := .trap pad v) rfl s).trans (congrArg Flow.outcome (trapTable_invalid hv (link s)))
    exact ⟨_, e, rfl, rfl, ⟨link_x_seven s, link_regsSameBut s, rfl, fun _ => rfl, rfl⟩, ⟨rfl, rfl, rfl, rfl, rfl⟩⟩
  · obtain ⟨frame, cond, -⟩ := exec_onlyLinked rfl h20 h23 h
    exact ⟨frame.regs 0#3 (by decide), cond⟩
  · obtain ⟨hv, kept | failed⟩ | halted | invalid : TrapRun v (link s) t :=
      exec_trap_next (i := .trap pad v) rfl (trapTable_trapRun v (link s)) h
    · exact .inl kept
    · exact .inr (.inr (.inr ⟨hv, failed⟩))
    · exact .inr (.inl halted)
    · exact .inr (.inr (.inl invalid))
  · exact (if_neg h22).trans (if_neg h24)

/-- A row that only raises a cause with its instruction word: the cause carries the word decoded, which the encoder
gives back (`encode_decode`), and nothing else changes. -/
theorem raises_of_decode {w : Word} {i : Instr} {c : Word → FatalCause} {s : State} (hd : decode w = i)
    (he : exec i s = .next (raise (c (encode i)) s)) (ha : dataAccesses i s = []) :
    dataAccesses (decode w) s = [] ∧ ∃ t, exec i s = .next t ∧ t.run = .faulted (c w) ∧ t.pc = s.pc ∧
      RegsSameBut [] s t ∧ t.cond = s.cond ∧ MemorySame s t ∧ HostSame s t := by
  have word : encode i = w := hd ▸ encode_decode w
  rw [word] at he
  exact ⟨hd ▸ ha, _, he, rfl, rfl, fun _ _ => rfl, rfl, fun _ => rfl, ⟨rfl, rfl, rfl, rfl, rfl⟩⟩

/-- Settles O44, by `raises_of_decode`. -/
theorem rtiRaises : Obligations.RtiRaises := fun _ h =>
  ⟨decode_opcode h, fun _ => raises_of_decode (c := .unsupportedInstruction) (decode_opcode h) rfl rfl⟩

/-- Settles O45, by `raises_of_decode`. -/
theorem reservedOpcodeRaises : Obligations.ReservedOpcodeRaises := fun _ h =>
  ⟨decode_opcode h, fun _ => raises_of_decode (c := .invalidOpcode) (decode_opcode h) rfl rfl⟩

/-! ### The services that send (R125, R126, R128, R129) -/

/-- Settles O39: the byte sent is `x[0]`'s low one, and the link leaves `x[0]` as it was. -/
theorem outSendsTheLowByte : Obligations.OutSendsTheLowByte := by
  refine ⟨fun w h hv => decode_trap h hv, fun pad s => ⟨fun hs => ?_, fun h0 => ?_⟩⟩
  · have e : exec (.out pad) s = _ := congrArg Flow.outcome (svcOut_sent (s := link s) hs)
    obtain ⟨frame, cond, waiting⟩ := exec_onlyLinked rfl (by decide) (by decide) e
    refine ⟨_, e, ?_, rfl, cond, rfl, frame, rfl, waiting⟩
    rw [← lowByte_eq_ofNat, ← link_x_zero s]
    exact List.append_assoc ..
  · have e : exec (.out pad) s = _ := congrArg Flow.outcome (svcOut_raised (s := link s) h0)
    obtain ⟨frame, cond, waiting⟩ := exec_onlyLinked rfl (by decide) (by decide) e
    exact ⟨_, e, rfl, h0, rfl, cond, frame, rfl, waiting⟩

/-- Settles O43: the notice is sent whole, or cut off where the sink fails. -/
theorem haltNotifiesAndStops : Obligations.HaltNotifiesAndStops := by
  refine ⟨fun w h hv => decode_trap h hv, fun pad s => ⟨fun hs => ?_, fun n hs hn => ?_⟩⟩
  · have e : exec (.halt pad) s = _ := congrArg Flow.outcome (svcHalt_sent (s := link s) hs)
    obtain ⟨frame, cond, waiting⟩ := exec_onlyLinked rfl (by decide) (by decide) e
    exact ⟨_, e, rfl, rfl, cond, frame, rfl, rfl, waiting⟩
  · have e : exec (.halt pad) s = _ := congrArg Flow.outcome (svcHalt_cutOff (s := link s) hs hn)
    exact ⟨_, e, rfl, rfl, s.cutOff_trapFrame _, rfl, rfl, rfl, rfl⟩

/-- Settles O40: the loop sends the string (`svcPuts_sent`), or one character holds the byte the sink does not take
(`exists_failing_char`). -/
theorem putsSendsTheString : Obligations.PutsSendsTheString := by
  refine ⟨fun w h hv => decode_trap h hv, fun pad s chars hc => ?_⟩
  simp only [← putsChar_eq_ofNat]
  rw [← link_x_zero s] at hc ⊢
  refine ⟨fun hz hs => ?_, fun n hs hn => ⟨fun k hle hlt => (svcPuts_cutOff (s := link s) hc hs hle hlt).2, ?_⟩⟩
  · obtain ⟨sends, reads⟩ := svcPuts_sent (s := link s) hc hz hs
    have e : exec (.puts pad) s = _ := congrArg Flow.outcome sends
    obtain ⟨frame, cond, waiting⟩ := exec_onlyLinked rfl (by decide) (by decide) e
    exact ⟨reads, _, e, rfl, rfl, cond, rfl, frame, rfl, waiting⟩
  · obtain ⟨j, hle, hlt⟩ := exists_failing_char chars hn
    have e : exec (.puts pad) s = _ := congrArg Flow.outcome (svcPuts_cutOff (s := link s) hc hs hle hlt).1
    exact ⟨_, e, rfl, rfl, rfl, rfl, s.cutOff_trapFrame _, rfl, rfl⟩

/-- Settles O42: as O40, by bytes. -/
theorem putspSendsTheString : Obligations.PutspSendsTheString := by
  refine ⟨fun w h hv => decode_trap h hv, fun pad s bytes => ?_⟩
  simp only [← State.packedByte_eq_ofNat]
  rw [← link_x_zero s]
  refine fun hc => ⟨fun hz hs => ?_, fun n hs hn => ?_⟩
  · obtain ⟨sends, reads⟩ := svcPutsp_sent (s := link s) hc hz hs
    have e : exec (.putsp pad) s = _ := congrArg Flow.outcome sends
    obtain ⟨frame, cond, waiting⟩ := exec_onlyLinked rfl (by decide) (by decide) e
    exact ⟨reads, _, e, rfl, rfl, cond, rfl, frame, rfl, waiting⟩
  · obtain ⟨fails, reads⟩ := svcPutsp_cutOff (s := link s) hc hs hn
    have e : exec (.putsp pad) s = _ := congrArg Flow.outcome fails
    exact ⟨reads, _, e, rfl, rfl, rfl, rfl, s.cutOff_trapFrame _, rfl, rfl⟩

/-- Settles O47: a round of the address space without a terminator is a memory without one. -/
theorem stringServicesEndAtATerminator : Obligations.StringServicesEndAtATerminator := by
  intro pad s h
  have puts : exec (.puts pad) s = .fault .serviceNeverEnds ↔ ∀ a, s.memRead a ≠ 0 :=
    Flow.outcome_fault.trans (svcPuts_endless_iff (s := link s) h)
  have putsp : exec (.putsp pad) s = .fault .serviceNeverEnds ↔
      ∀ a, (s.memRead a).toNat % 256 ≠ 0 ∧ (s.memRead a).toNat / 256 ≠ 0 := by
    simp only [ne_eq, ← lowByte_eq_zero_iff, ← highByte_eq_zero_iff]
    exact Flow.outcome_fault.trans (svcPutsp_endless_iff (s := link s) h)
  have puts_next := (Flow.exists_next_iff (svcPuts (link s))).trans (not_congr puts)
  have putsp_next := (Flow.exists_next_iff (svcPutsp (link s))).trans (not_congr putsp)
  refine ⟨puts, puts_next.trans ?_, putsp, putsp_next.trans ?_⟩
  · simp only [ne_eq, not_forall, not_not]
  · simp only [ne_eq, not_forall, not_and_or, not_not]

/-! ### The services that read (R124, R127) -/

/-- Settles O38: the read after the link, on a byte and on a failed stream. -/
theorem getcReadsOneByte : Obligations.GetcReadsOneByte := by
  refine ⟨fun w h hv => decode_trap h hv, fun pad s => ⟨fun b rest h => ?_, fun rest h => ?_⟩⟩
  · have e : exec (.getc pad) s = _ := congrArg Flow.outcome (getcRead_byte (s := link s) h)
    have w := State.writeRegSetcc_wrote (((link s).setInput rest).setWaiting none) 0#3 (zext b)
    exact ⟨_, e, w.dest.trans (zext_byte b), (State.writeRegSetcc_cond ..).trans (condOf_zext_byte b),
      exec_trapFrame rfl e, w.run, w.host.input, w.host.output, w.host.sinkRoom, w.host.waiting⟩
  · have e : exec (.getc pad) s = _ := congrArg Flow.outcome (getcRead_failure (s := link s) h)
    have frame := (s.atRead_trapFrame .getc).wait s.input none
    exact ⟨_, e, rfl, rfl, frame.raised .hostIOFailure, rfl, rfl, rfl⟩

/-- The sink takes the echo where it takes the prompt and one byte more, and its room then. -/
theorem State.sinkTakes_prompt_echo {s : State} (h : s.sinkTakes (s.cfg.inPrompt.length + 1)) :
    s.sinkTakes s.cfg.inPrompt.length ∧ (s.atRead .inp).sinkTakes 1 :=
  State.sinkTakes_append (bs := s.cfg.inPrompt) (cs := [0#8]) (by simpa using h)

theorem State.roomAfter_prompt_echo (s : State) :
    (s.atRead .inp).roomAfter 1 = s.roomAfter (s.cfg.inPrompt.length + 1) := by
  have room := congrArg State.sinkRoom (s.sent_sent s.cfg.inPrompt [0#8])
  exact room.trans (congrArg s.roomAfter List.length_append)

/-- Settles O41: the prompt is sent whole and the read follows, or the prompt is cut off. -/
theorem inPromptsReadsEchoes : Obligations.InPromptsReadsEchoes := by
  refine ⟨fun w h hv => decode_trap h hv, fun pad s => ⟨fun b rest h hs => ?_, fun b rest h hs => ?_,
    fun rest h hs => ?_, fun n hs hn => ?_⟩⟩
  · obtain ⟨prompt, echo⟩ := State.sinkTakes_prompt_echo hs
    have e := (exec_inp pad prompt).trans
      (congrArg Flow.outcome (resume_byte .inp (s := s.atRead .inp) h fun _ => echo))
    have w := State.writeRegSetcc_wrote ((s.atRead .inp).tookByte .inp b rest) 0#3 (zext b)
    exact ⟨_, e, w.dest.trans (zext_byte b), (State.writeRegSetcc_cond ..).trans (condOf_zext_byte b),
      exec_trapFrame rfl e, w.run, w.host.input, w.host.output, w.host.sinkRoom.trans s.roomAfter_prompt_echo,
      w.host.waiting⟩
  · have prompt : s.sinkTakes s.cfg.inPrompt.length := .inr ⟨_, hs, le_rfl⟩
    have full : (s.atRead .inp).sinkRoom = some 0 :=
      (State.sent_sinkRoom (s := link s) hs s.cfg.inPrompt).trans (congrArg some (Nat.sub_self _))
    have e := (exec_inp pad prompt).trans (congrArg Flow.outcome (inRead_echo_raised (s := s.atRead .inp) h full))
    have frame := (s.atRead_trapFrame .inp).wait rest none
    exact ⟨_, e, rfl, rfl, frame.raised .hostIOFailure, rfl, rfl, full, rfl⟩
  · have e := (exec_inp pad hs).trans (congrArg Flow.outcome (resume_failure .inp (s := s.atRead .inp) h))
    have frame := (s.atRead_trapFrame .inp).wait s.input none
    exact ⟨_, e, rfl, rfl, frame.raised .hostIOFailure, rfl, rfl, rfl⟩
  · have e : exec (.inp pad) s = _ := congrArg Flow.outcome (svcIn_raised (s := link s) hs hn)
    exact ⟨_, e, rfl, rfl, s.cutOff_trapFrame _, rfl, rfl, rfl, rfl⟩

end Sys2Proof.Machine
end

section
/-! PROOFS. The exceptions family: the state every fatal stop leaves, and the steps that have no next state
(spec/60_exceptions.md R140, R142, R146; spec/43_trap_system.md R122). -/

namespace Sys2Proof.Machine

/-! ### What a service that stops the block has written (R142, R146) -/

/-- Where the run state changed, no register and no flag did. -/
def StopKeeps (s t : State) : Prop := t.run ≠ s.run → t.regs = s.regs ∧ t.cond = s.cond

/-- A read that fails, or whose echo fails, is abandoned before `x[0]` and the flags are written (R146). -/
theorem resume_stopKeeps (p : WaitPoint) (s : State) : (resume p s).All (StopKeeps s) := by
  cases p with
  | getc =>
    obtain ⟨b, more, -, e⟩ | ⟨more, e, -⟩ | e := getcRead_ends s <;> rw [resume, e]
    · exact fun hr => absurd rfl hr
    · exact fun hr => absurd rfl hr
    · exact fun _ => ⟨rfl, rfl⟩
  | inp =>
    obtain ⟨b, more, t, -, echo, e⟩ | ⟨more, e, -⟩ | ⟨b, more, -, e⟩ | e := inRead_ends s <;> rw [resume, e]
    · obtain ⟨u, done, run⟩ | ⟨u, raised, -⟩ := hostOut_ends b ((s.setInput more).setWaiting none)
      · obtain rfl : t = u := Flow.done.inj (echo.symm.trans done)
        exact fun hr => absurd run hr
      · cases echo.symm.trans raised
    · exact fun hr => absurd rfl hr
    · exact fun _ => ⟨rfl, rfl⟩
    · exact fun _ => ⟨rfl, rfl⟩

/-- Whatever the vector: only GETC and IN write a register or a flag after the link, and not where they stop. -/
theorem trapTable_stopKeeps (v : BitVec 8) (s : State) : (trapTable v s).All (StopKeeps s) := by
  by_cases h20 : v = 0x20#8
  · subst h20
    exact resume_stopKeeps .getc s
  by_cases h23 : v = 0x23#8
  · subst h23
    rw [trapTable_in]
    by_cases hs : s.sinkTakes s.cfg.inPrompt.length
    · rw [svcIn_reads hs]
      exact resume_stopKeeps .inp s.prompted
    · obtain ⟨n, e⟩ := svcIn_cutOff hs
      rw [e]
      exact fun _ => ⟨rfl, rfl⟩
  exact (trapTable_unread h20 h23 s).mono fun t unread _ => ⟨unread.regs, unread.cond⟩

/-- A TRAP that stops the block leaves TRAP's frame with no register but the link, and the flags as they were. -/
theorem exec_trapFrame_of_stop {i : Instr} {v : BitVec 8} {s t : State} (hv : trapVector i = some v)
    (h : exec i s = .next t) (hr : t.run ≠ s.run) : TrapFrame [] s t ∧ t.cond = s.cond := by
  obtain ⟨regs, cond⟩ := exec_trap_next hv (trapTable_stopKeeps v (link s)) h hr
  have frame := exec_trapFrame hv h
  exact ⟨⟨frame.linked, fun r hn => (State.x_eq_of_regs regs r).trans (link_regsSameBut s r hn), frame.pc, frame.memory,
    frame.cfg⟩, cond⟩

/-- Settles O46, by the opcode's class: a TRAP stops for its vector or for a host failure (`trapTable_trapRun`), each
stopping opcode for its own cause (`raises_of_decode`), and no other row stops. -/
theorem stateLeftByFatalStops : Obligations.StateLeftByFatalStops := by
  intro s t c hr hw h hc
  rw [step_fetches hr hw] at h
  obtain ⟨-, hv⟩ | ⟨-, hd⟩ | ⟨-, hd⟩ | ⟨-, -, -, hv, hrti, hres⟩ := decode_cases s.fetch
  · have stopped : t.run ≠ s.advance.run := by simp [hc, hr]
    obtain ⟨frame, cond⟩ := exec_trapFrame_of_stop hv h stopped
    obtain ⟨-, kept | failed⟩ | ⟨-, halted⟩ | ⟨hs, -⟩ : TrapRun (field 0 8 s.fetch) (link s.advance) t :=
      exec_trap_next hv (trapTable_trapRun _ _) h
    · exact absurd kept stopped
    · cases hc.symm.trans failed
      exact ⟨frame.pc, cond, frame.memory, (exec_kept h).output, frame.linked, frame.regs⟩
    · cases hc.symm.trans halted
    · rw [exec_trapVector hv, trapTable_invalid hs] at h
      cases h; cases hc
      exact ⟨rfl, rfl, fun _ => rfl, List.prefix_rfl, rfl, frame.linked, frame.regs, rfl⟩
  · obtain ⟨-, u, e, run, pc, regs, cond, memory, host⟩ :=
      raises_of_decode (c := .unsupportedInstruction) (s := s.advance) hd rfl rfl
    rw [hd, e] at h; cases h; cases hc.symm.trans run
    exact ⟨pc, cond, memory, host.output ▸ List.prefix_rfl, rfl, regs, host.output⟩
  · obtain ⟨-, u, e, run, pc, regs, cond, memory, host⟩ :=
      raises_of_decode (c := .invalidOpcode) (s := s.advance) hd rfl rfl
    rw [hd, e] at h; cases h; cases hc.symm.trans run
    exact ⟨pc, cond, memory, host.output ▸ List.prefix_rfl, rfl, regs, host.output⟩
  · have run : t.run = s.advance.run := exec_run_of_plain hv hrti hres h
    exact nomatch hc.symm.trans (run.trans hr)

/-! ### The steps that have no next state (R122, R140) -/

/-- A whole that never ends has a part that never ends. -/
theorem Flow.andThen_endless_cases {f : Flow} {k : State → Flow} (h : f.andThen k = .endless) :
    f = .endless ∨ ∃ t, f = .done t ∧ k t = .endless := by
  cases f with
  | done t => exact .inr ⟨t, rfl, h⟩
  | endless => exact .inl rfl
  | raised t | waits t => cases h

/-- Reading ends, with a wait at most (R25). -/
theorem resume_ne_endless (p : WaitPoint) (s : State) : resume p s ≠ .endless := by
  cases p with
  | getc => obtain ⟨b, more, -, e⟩ | ⟨more, e, -⟩ | e := getcRead_ends s <;> rw [resume, e] <;> nofun
  | inp =>
    obtain ⟨b, more, t, -, -, e⟩ | ⟨more, e, -⟩ | ⟨b, more, -, e⟩ | e := inRead_ends s <;> rw [resume, e] <;> nofun

theorem hostOut_ne_endless (b : Byte) (s : State) : hostOut b s ≠ .endless := by
  obtain ⟨t, e, -⟩ | ⟨t, e, -⟩ := hostOut_ends b s <;> rw [e] <;> nofun

theorem hostOutAll_ne_endless (bs : List Byte) (s : State) : hostOutAll bs s ≠ .endless := by
  obtain ⟨t, e, -⟩ | ⟨t, e, -⟩ := hostOutAll_ends bs s <;> rw [e] <;> nofun

theorem svcIn_ne_endless (s : State) : svcIn s ≠ .endless := by
  intro h
  obtain prompt | ⟨t, -, read⟩ := Flow.andThen_endless_cases h
  · exact hostOutAll_ne_endless _ _ prompt
  · exact resume_ne_endless .inp _ read

/-- A PUTS that never ends, whatever the sink, has gone round a memory without a zero word (R122). -/
theorem memRead_ne_zero_of_svcPuts_endless {s : State} (h : svcPuts s = .endless) (a : Word) : s.memRead a ≠ 0 :=
  every_address (P := fun b => s.memRead b ≠ 0) s.stringFuel_ge (putsLoop_endless _ _ s (Flow.andThen_done_endless.mp h)) a

/-- A PUTSP that never ends, whatever the sink, has gone round a memory without a zero byte (R122). -/
theorem bytes_ne_zero_of_svcPutsp_endless {s : State} (h : svcPutsp s = .endless) (a : Word) :
    (s.memRead a).toNat % 256 ≠ 0 ∧ (s.memRead a).toNat / 256 ≠ 0 := by
  obtain ⟨low, high⟩ := every_address (P := fun b => lowByte (s.memRead b) ≠ 0 ∧ highByte (s.memRead b) ≠ 0)
    s.stringFuel_ge (putspLoop_endless _ _ s (Flow.andThen_done_endless.mp h)) a
  exact ⟨mt (lowByte_eq_zero_iff _).mpr low, mt (highByte_eq_zero_iff _).mpr high⟩

/-- The only services that may never end are PUTS and PUTSP. -/
theorem trapTable_endless {v : BitVec 8} {s : State} (h : trapTable v s = .endless) :
    (v = 0x22#8 ∧ svcPuts s = .endless) ∨ (v = 0x24#8 ∧ svcPutsp s = .endless) := by
  cases hv : isServiceVector v with
  | false => rw [trapTable_invalid hv] at h; cases h
  | true =>
    rcases isServiceVector_cases hv with rfl | rfl | rfl | rfl | rfl | rfl
    · exact absurd h (resume_ne_endless .getc s)
    · exact absurd (Flow.andThen_done_endless.mp h) (hostOut_ne_endless _ s)
    · exact .inl ⟨rfl, h⟩
    · exact absurd h (svcIn_ne_endless s)
    · exact .inr ⟨rfl, h⟩
    · exact absurd (Flow.andThen_done_endless.mp h) (hostOutAll_ne_endless _ s)

/-- A word of any opcode but 15 is no TRAP row. -/
theorem trapVector_decode_eq_none {w : Word} (h : field 12 4 w ≠ 15#4) : trapVector (decode w) = none := by
  obtain ⟨h15, -⟩ | ⟨-, hd⟩ | ⟨-, hd⟩ | ⟨-, -, -, hv, -⟩ := decode_cases w
  · exact absurd h15 h
  · rw [hd]; rfl
  · rw [hd]; rfl
  · exact hv

/-- A row that is no TRAP has a next state. -/
theorem exists_exec_next {i : Instr} (hv : trapVector i = none) (s : State) : ∃ t, exec i s = .next t := by
  obtain ⟨_, _, -, -, -, e⟩ | ⟨_, -, -, -, e⟩ | ⟨_, -, -, -, e⟩ | ⟨_, _, -, -, -, e⟩ | ⟨_, -, -, -, e, -⟩ :=
    exec_cases hv s <;> exact ⟨_, e⟩

/-- Settles O53: a stopped block, a service that waited and a row that is no TRAP have a next state, and so has a TRAP
unless its service never ends (`trapTable_endless`). -/
theorem onlyEndlessStringsHaveNoNextState : Obligations.OnlyEndlessStringsHaveNoNextState := by
  intro s
  by_cases hr : s.run = .running
  case neg => exact .inl ⟨s, step_stopped hr⟩
  cases hw : s.waiting with
  | some p =>
    rw [step_resumes hr hw]
    exact .inl ((Flow.exists_next_iff _).mpr (mt Flow.outcome_fault.mp (resume_ne_endless p s)))
  | none =>
    rw [step_fetches hr hw]
    by_cases h15 : field 12 4 s.fetch = 15#4
    case neg => exact .inl (exists_exec_next (trapVector_decode_eq_none h15) s.advance)
    rw [exec_trapVector (trapVector_decode h15)]
    by_cases hf : trapTable (field 0 8 s.fetch) (link s.advance) = .endless
    · refine .inr ⟨Flow.outcome_fault.mpr hf, hr, rfl, h15, ?_⟩
      obtain ⟨h22, puts⟩ | ⟨h24, putsp⟩ := trapTable_endless hf
      · exact .inl ⟨h22, memRead_ne_zero_of_svcPuts_endless (s := link s.advance) puts⟩
      · exact .inr ⟨h24, bytes_ne_zero_of_svcPutsp_endless (s := link s.advance) putsp⟩
    · exact .inl ((Flow.exists_next_iff _).mpr (mt Flow.outcome_fault.mp hf))

end Sys2Proof.Machine
end

section
/-! PROOFS. The reset and launch family: what reset does from any state, what the loader leaves, and the first step of
the end-to-end scenario (spec/70_reset_and_hazards.md R170, R176, R178; D17, D18, D24). -/

namespace Sys2Proof.Machine

/-! ### What the loader writes (R176(a)) -/

/-- Of an ascending range of at most 65536 word addresses, no later one is the first (R31). -/
theorem ne_add_one_add_ofNat {a : Word} {k n : Nat} (hk : k < n) (hn : n + 1 ≤ 65536) :
    a ≠ a + 1 + BitVec.ofNat 16 k := by
  rw [add_one_add_ofNat, Ne, left_eq_add, ← BitVec.toNat_inj, BitVec.toNat_ofNat, Nat.mod_eq_of_lt (by omega)]
  exact Nat.succ_ne_zero k

/-- The loader changes memory alone. -/
theorem State.loadWords_eq_setMem (ws : List Word) : ∀ (a : Word) (s : State),
    State.loadWords a ws s = s.setMem (State.loadWords a ws s).mem := by
  induction ws with
  | nil => exact fun _ _ => rfl
  | cons w ws ih => exact fun a s => ih (a + 1) (s.memWrite a w)

/-- A word outside the loaded range reads as it did. -/
theorem State.loadWords_memRead_outside {b : Word} (ws : List Word) : ∀ (a : Word) (s : State), s.mem.wf = true →
    (∀ k < ws.length, b ≠ a + BitVec.ofNat 16 k) → (State.loadWords a ws s).memRead b = s.memRead b := by
  induction ws with
  | nil => exact fun _ _ _ _ => rfl
  | cons w ws ih =>
    intro a s hm hb
    have hba : b ≠ a := by simpa using hb 0 (Nat.succ_pos _)
    have tail : ∀ k < ws.length, b ≠ a + 1 + BitVec.ofNat 16 k := fun k hk => by
      rw [add_one_add_ofNat]; exact hb (k + 1) (Nat.succ_lt_succ hk)
    calc (State.loadWords (a + 1) ws (s.memWrite a w)).memRead b
      _ = (s.memWrite a w).memRead b := ih (a + 1) (s.memWrite a w) (Memory.wf_write hm a w) tail
      _ = s.memRead b := by rw [State.memRead_memWrite hm, if_neg hba]

/-- A loaded word stands at its place: no later word of a program that fits into memory overwrites it. -/
theorem State.loadWords_memRead_loaded (ws : List Word) : ∀ (a : Word) (s : State), s.mem.wf = true →
    ws.length ≤ 65536 → ∀ k (h : k < ws.length),
    (State.loadWords a ws s).memRead (a + BitVec.ofNat 16 k) = ws[k] := by
  induction ws with
  | nil => exact fun _ _ _ _ k h => absurd h (Nat.not_lt_zero k)
  | cons w ws ih =>
    intro a s hm hlen k h
    have hm' := Memory.wf_write hm a w
    cases k with
    | zero =>
      have later : ∀ j < ws.length, a ≠ a + 1 + BitVec.ofNat 16 j := fun j hj => ne_add_one_add_ofNat hj hlen
      calc (State.loadWords (a + 1) ws (s.memWrite a w)).memRead (a + 0#16)
        _ = (s.memWrite a w).memRead a := by
          rw [BitVec.add_zero, State.loadWords_memRead_outside ws (a + 1) (s.memWrite a w) hm' later]
        _ = w := by rw [State.memRead_memWrite hm, if_pos rfl]
    | succ k =>
      rw [← add_one_add_ofNat]
      exact ih (a + 1) (s.memWrite a w) hm' (Nat.le_of_succ_le hlen) k (Nat.lt_of_succ_lt_succ h)

/-! ### The launch state (R176) -/

/-- The entry is written to `pc`, or `pc` is left (R176(b)). -/
theorem State.setEntry_eq_setPc (entry : Option Word) (s : State) : s.setEntry entry = s.setPc (entry.getD s.pc) := by
  cases entry <;> rfl

/-- The launch state is the reset state with the loader's memory and the entry's `pc`. -/
theorem State.launch_eq (cfg : Config) (memInit : Memory) (input : List HostInput) (room : Option Nat) (base : Word)
    (program : List Word) (entry : Option Word) : State.launch cfg memInit input room base program entry =
      ((State.resetWith cfg memInit input room).setMem
        (State.loadWords base program (State.resetWith cfg memInit input room)).mem).setPc (entry.getD cfg.resetPc) := by
  rw [State.launch, State.setEntry_eq_setPc, State.loadWords_eq_setMem]
  rfl

/-- Settles O4: memory is the loader's (`State.loadWords_memRead_loaded`, `State.loadWords_memRead_outside`,
`State.loadWords_wf`), `pc` the entry's, and every other field the reset state's (`State.launch_eq`). -/
theorem launchState : Obligations.LaunchState := by
  intro cfg memInit input room base program entry hm hlen
  rw [State.launch_eq]
  exact ⟨State.loadWords_memRead_loaded program base _ hm hlen, fun _ => State.loadWords_memRead_outside program base _ hm,
    State.loadWords_wf program base _ hm, rfl, State.resetWith_x cfg memInit input room, rfl, rfl, rfl, rfl, rfl, rfl, rfl⟩

/-! ### Reset from any state (R170) -/

/-- Neither end of a run is RUNNING (R19). -/
theorem State.run_ne_running_of_end {s : State} (h : s.GoodEnd ∨ s.BadEnd) : s.run ≠ .running := by
  obtain halted | ⟨_, faulted⟩ := h
  · rw [show s.run = _ from halted]; nofun
  · rw [faulted]; nofun

/-- Settles O3: the reset values as `State.resetWith` lists them, and no step leaves an end (`step_stopped`). -/
theorem resetFromAnyState : Obligations.ResetFromAnyState := fun s =>
  ⟨⟨State.resetWith_x s.cfg s.mem s.input s.sinkRoom, rfl, rfl, rfl, rfl, fun _ => rfl⟩,
    fun h => step_stopped (State.run_ne_running_of_end h)⟩

/-! ### The end-to-end scenario (R178) -/

/-- Settles O5: the fetch finds the one loaded word (`launchState`), and that word adds 5 to a register that holds 0. -/
theorem firstStepOfEndToEndScenario : Obligations.FirstStepOfEndToEndScenario := by
  intro cfg memInit input room hm
  obtain ⟨loaded, -, -, hpc, hx, -, hrun, -, -, -, hwait, -⟩ :=
    launchState cfg memInit input room cfg.resetPc [0x1025] none hm (by decide)
  generalize State.launch cfg memInit input room cfg.resetPc [0x1025] none = s at *
  have fetched : s.fetch = 0x1025 := by
    rw [State.fetch, hpc]; simpa using loaded 0 (Nat.succ_pos 0)
  have sum : s.advance.x 0#3 + sext 5#5 = 5 := by rw [State.advance_x, hx]; decide
  refine ⟨s.advance.writeRegSetcc 0#3 5, ?_, ?_, ?_, ?_⟩
  · rw [step_fetches hrun hwait, fetched, show decode 0x1025 = .addImm 0#3 0#3 5#5 by decide, ← sum]
    rfl
  · exact (State.writeRegSetcc_wrote s.advance 0#3 5).dest
  · rw [State.writeRegSetcc_cond]; decide
  · rw [(State.writeRegSetcc_wrote s.advance 0#3 5).pc, State.advance_pc, hpc]; rfl

end Sys2Proof.Machine
end

section
/-! PROOFS. The round trip from the instruction: encode, then decode (spec/30_encoding.md R54, R55, R59, R62). An
encoded word is its fields in their places, the opcode and the mode bits among them, and the decoder reads each back. -/

namespace Sys2Proof

/-! ### Single bits -/

/-- A mode or flag bit, read as a field of one bit. -/
theorem getLsbD_of_field_one {lo : Nat} {w : Word} {b : Bool} (h : field lo 1 w = BitVec.ofBool b) :
    w.getLsbD lo = b := by
  rw [field_one] at h
  simpa using congrArg (BitVec.getLsbD · 0) h

/-- A word that requests a flag is no NOP (R65, R91). -/
theorem field_flags_ne_zero {w : Word} (h : (w.getLsbD 11 || w.getLsbD 10 || w.getLsbD 9) = true) :
    field 9 3 w ≠ 0#3 := by
  intro hz
  have unset (k : Nat) (hk : k < 3) : w.getLsbD (9 + k) = false := by
    have hbit := getLsbD_field 9 3 w k
    rw [hz] at hbit
    simpa [hk] using hbit
  rw [unset 0 (by decide), unset 1 (by decide), unset 2 (by decide)] at h
  exact absurd h (by decide)

/-! ### The decoder on fields in their places, by the format (R54)

`k` is the row's constructor, `hk` how the decoder uses it at the opcode `o`. -/

/-- Format NOF. -/
theorem decode_nof (o : BitVec 4) {k : BitVec 12 → Instr} (hk : ∀ w, decodeOpcode o w = k (field 0 12 w))
    (pad : BitVec 12) : decode (place 12 o ||| place 0 pad) = k pad := by
  rw [decode_opcode (o := o), hk] <;> simp (disch := decide) [field_or, field_place, field_place_of_disjoint]

/-- Format PCR. -/
theorem decode_pcr (o : BitVec 4) {k : RegSel → BitVec 9 → Instr}
    (hk : ∀ w, decodeOpcode o w = k (field 9 3 w) (field 0 9 w)) (r : RegSel) (off : BitVec 9) :
    decode (place 12 o ||| (place 9 r ||| place 0 off)) = k r off := by
  rw [decode_opcode (o := o), hk] <;> simp (disch := decide) [field_or, field_place, field_place_of_disjoint]

/-- Formats BOF, NOTF and JMPF have the same ranges; JMPF's row depends on the middle one (R92). -/
theorem decode_bof (o : BitVec 4) {k : BitVec 3 → RegSel → BitVec 6 → Instr} (hi : BitVec 3) (r : RegSel)
    (lo : BitVec 6) (hk : ∀ w, field 6 3 w = r → decodeOpcode o w = k (field 9 3 w) r (field 0 6 w)) :
    decode (place 12 o ||| (place 9 hi ||| place 6 r ||| place 0 lo)) = k hi r lo := by
  rw [decode_opcode (o := o), hk] <;> simp (disch := decide) [field_or, field_place, field_place_of_disjoint]

/-- Format OPR: mode bit 5 is clear (R55). -/
theorem decode_opr (o : BitVec 4) {k : RegSel → RegSel → BitVec 2 → RegSel → Instr}
    (hk : ∀ w, w.getLsbD 5 = false → decodeOpcode o w = k (field 9 3 w) (field 6 3 w) (field 3 2 w) (field 0 3 w))
    (dr sr1 : RegSel) (pad : BitVec 2) (sr2 : RegSel) :
    decode (place 12 o ||| (place 9 dr ||| place 6 sr1 ||| place 3 pad ||| place 0 sr2)) = k dr sr1 pad sr2 := by
  rw [decode_opcode (o := o), hk _ (getLsbD_of_field_one _)] <;>
    simp (disch := decide) [field_or, field_place, field_place_of_disjoint]

/-- Format OPI: mode bit 5 is set (R55). -/
theorem decode_opi (o : BitVec 4) {k : RegSel → RegSel → BitVec 5 → Instr}
    (hk : ∀ w, w.getLsbD 5 = true → decodeOpcode o w = k (field 9 3 w) (field 6 3 w) (field 0 5 w))
    (dr sr1 : RegSel) (imm5 : BitVec 5) :
    decode (place 12 o ||| place 5 1#1 ||| (place 9 dr ||| place 6 sr1 ||| place 0 imm5)) = k dr sr1 imm5 := by
  rw [decode_opcode (o := o), hk _ (getLsbD_of_field_one _)] <;>
    simp (disch := decide) [field_or, field_place, field_place_of_disjoint]

/-- Format JSRF: mode bit 11 is set (R55). -/
theorem decode_jsrf (off : BitVec 11) : decode (place 12 4#4 ||| place 11 1#1 ||| place 0 off) = .jsr off := by
  have jsr {w : Word} (h : w.getLsbD 11 = true) : decodeOpcode 4#4 w = .jsr (field 0 11 w) := if_pos h
  rw [decode_opcode (o := 4#4), jsr (getLsbD_of_field_one _)] <;>
    simp (disch := decide) [field_or, field_place, field_place_of_disjoint]

/-- Format JSRRF: mode bit 11 is clear (R55). -/
theorem decode_jsrrf (padHi : BitVec 2) (baseR : RegSel) (padLo : BitVec 6) :
    decode (place 12 4#4 ||| (place 9 padHi ||| place 6 baseR ||| place 0 padLo)) = .jsrr padHi baseR padLo := by
  have jsrr {w : Word} (h : w.getLsbD 11 = false) :
      decodeOpcode 4#4 w = .jsrr (field 9 2 w) (field 6 3 w) (field 0 6 w) := if_neg (ne_true_of_eq_false h)
  rw [decode_opcode (o := 4#4), jsrr (getLsbD_of_field_one _)] <;>
    simp (disch := decide) [field_or, field_place, field_place_of_disjoint]

/-- Format BRF, where a flag is requested (R91). -/
theorem decode_brf {n z p : Bool} (h : (n || z || p) = true) (off : BitVec 9) :
    decode (place 12 0#4 ||| (place 11 (BitVec.ofBool n) ||| place 10 (BitVec.ofBool z) |||
      place 9 (BitVec.ofBool p) ||| place 0 off)) = .br n z p off := by
  generalize hw : place 12 0#4 ||| (_ : Word) = w
  obtain ⟨ho, hn, hz, hp, hoff⟩ : field 12 4 w = 0#4 ∧ field 11 1 w = BitVec.ofBool n ∧
      field 10 1 w = BitVec.ofBool z ∧ field 9 1 w = BitVec.ofBool p ∧ field 0 9 w = off := by
    subst hw
    refine ⟨?_, ?_, ?_, ?_, ?_⟩ <;> simp (disch := decide) [field_or, field_place, field_place_of_disjoint]
  obtain rfl := getLsbD_of_field_one hn
  obtain rfl := getLsbD_of_field_one hz
  obtain rfl := getLsbD_of_field_one hp
  rw [decode_opcode ho, ← hoff]
  exact if_neg (field_flags_ne_zero h)

/-- Format TRAPF: the vector chooses the row (R120). -/
theorem decode_trapf (pad : BitVec 4) (v : BitVec 8) :
    decode (place 12 15#4 ||| (place 8 pad ||| place 0 v)) = .ofVector pad v := by
  rw [decode_trap (v := v)] <;> simp (disch := decide) [field_or, field_place, field_place_of_disjoint]

/-- A row that fixes the vector as well as the opcode is in format TRAPF too (R121). -/
theorem decode_service (pad : BitVec 4) (v : BitVec 8) :
    decode (place 12 15#4 ||| place 0 v ||| place 8 pad) = .ofVector pad v := by
  rw [BitVec.or_assoc, BitVec.or_comm (place 0 v), decode_trapf]

/-! ### Encode, then decode -/

theorem decode_encode_ret (padHi : BitVec 3) (padLo : BitVec 6) :
    decode (encode (.ret padHi padLo)) = .ret padHi padLo := by
  rw [show encode (.ret padHi padLo) = place 12 12#4 ||| place 6 7#3 ||| (place 9 padHi ||| place 0 padLo) from rfl,
    decode_ret] <;> simp (disch := decide) [field_or, field_place, field_place_of_disjoint]

theorem decode_encode_nop (off : BitVec 9) : decode (encode (.nop off)) = .nop off := by
  rw [show encode (.nop off) = place 12 0#4 ||| place 0 off from rfl, decode_nop] <;>
    simp (disch := decide) [field_or, field_place, field_place_of_disjoint]

/-- Encoding then decoding gives a well-formed instruction back, row by row: the row's fixed bits are its opcode with
its mode bit or vector, in their places. -/
theorem decode_encode {i : Instr} (h : i.WellFormed = true) : decode (encode i) = i := by
  cases i with
  | addReg dr sr1 pad sr2 => exact decode_opr 1#4 (fun _ h5 => if_neg (ne_true_of_eq_false h5)) dr sr1 pad sr2
  | addImm dr sr1 imm5 => exact decode_opi 1#4 (fun _ h5 => if_pos h5) dr sr1 imm5
  | andReg dr sr1 pad sr2 => exact decode_opr 5#4 (fun _ h5 => if_neg (ne_true_of_eq_false h5)) dr sr1 pad sr2
  | andImm dr sr1 imm5 => exact decode_opi 5#4 (fun _ h5 => if_pos h5) dr sr1 imm5
  | not dr sr pad => exact decode_bof 9#4 dr sr pad fun _ hr => hr ▸ rfl
  | br n z p off => exact decode_brf h off
  | jmp padHi baseR padLo =>
    have base : baseR ≠ 7#3 := bne_iff_ne.mp h
    exact decode_bof 12#4 padHi baseR padLo fun _ hr => by subst hr; exact if_neg base
  | jsr off => exact decode_jsrf off
  | jsrr padHi baseR padLo => exact decode_jsrrf padHi baseR padLo
  | ld dr off => exact decode_pcr 2#4 (fun _ => rfl) dr off
  | ldi dr off => exact decode_pcr 10#4 (fun _ => rfl) dr off
  | lea dr off => exact decode_pcr 14#4 (fun _ => rfl) dr off
  | st sr off => exact decode_pcr 3#4 (fun _ => rfl) sr off
  | sti sr off => exact decode_pcr 11#4 (fun _ => rfl) sr off
  | ldr dr baseR off => exact decode_bof 6#4 dr baseR off fun _ hr => hr ▸ rfl
  | str sr baseR off => exact decode_bof 7#4 sr baseR off fun _ hr => hr ▸ rfl
  | trap pad v =>
    have outside : isServiceVector v = false := by simpa [Instr.WellFormed] using h
    exact (decode_trapf pad v).trans (Instr.ofVector_invalid outside pad)
  | rti pad => exact decode_nof 8#4 (fun _ => rfl) pad
  | res pad => exact decode_nof 13#4 (fun _ => rfl) pad
  | getc pad => exact decode_service pad 0x20#8
  | out pad => exact decode_service pad 0x21#8
  | puts pad => exact decode_service pad 0x22#8
  | inp pad => exact decode_service pad 0x23#8
  | putsp pad => exact decode_service pad 0x24#8
  | halt pad => exact decode_service pad 0x25#8
  | ret padHi padLo => exact decode_encode_ret padHi padLo
  | nop off => exact decode_encode_nop off

/-- Settles O13, by `decode_encode`. -/
theorem decodeOfEncodeIsIdentity : Obligations.DecodeOfEncodeIsIdentity := fun _ h => decode_encode h

end Sys2Proof
end

section
/-! PROOFS. The reset state's own choices and invariant, and the word placed for the next fetch (spec/10_state.md R20,
R27; log 1, 2, 13, 14, 15, 21). -/

namespace Sys2Proof.Machine

/-! ### The reset state -/

/-- Settles O2: `State.reset` lists these values, and the default patterns 1, 2, 4 are distinct. -/
theorem resetStateChoices : Obligations.ResetStateChoices := ⟨rfl, rfl, rfl, rfl, rfl, by decide⟩

/-- Settles O51: no service waits after reset, so the invariant is the canonical form of the launch memory. -/
theorem resetHasInvariant : Obligations.ResetHasInvariant := fun _ _ _ _ hm =>
  ⟨State.Inv.of_not_waiting hm rfl, State.Inv.of_not_waiting reset_mem_wf rfl⟩

/-! ### A placed word -/

/-- A word placed for the next fetch changes that one word of memory (log 21). -/
theorem State.withFetchWord_memRead {s : State} (hm : s.mem.wf = true) (nbits : Nat) (w a : Word) :
    (s.withFetchWord nbits w.toNat).memRead a = if a = s.pc then w else s.memRead a :=
  calc (s.withFetchWord nbits w.toNat).memRead a
    _ = (s.memWrite s.pc (BitVec.ofNat 16 w.toNat)).memRead a := rfl
    _ = if a = s.pc then w else s.memRead a := by rw [BitVec.ofNat_toNat, BitVec.setWidth_eq, State.memRead_memWrite hm]

/-- Settles O7: the block fetches, by `step_fetches`, and what it fetches is the word placed. -/
theorem placedWordIsRunNext : Obligations.PlacedWordIsRunNext := by
  intro s nbits w hm
  have fetched : (s.withFetchWord nbits w.toNat).fetch = w :=
    (State.withFetchWord_memRead hm nbits w s.pc).trans (if_pos rfl)
  have runs : step (s.withFetchWord nbits w.toNat) = exec (decode w) (s.withFetchWord nbits w.toNat).advance := by
    rw [step_fetches (s := s.withFetchWord nbits w.toNat) rfl rfl, fetched]
  exact ⟨_, runs, rfl, rfl, rfl, fetched,
    fun a ha => (State.withFetchWord_memRead hm nbits w a).trans (if_neg ha), rfl, rfl⟩

end Sys2Proof.Machine
end
